-- ==== Sys2Proof/Word.lean ====
section
/-! DEFINITION. The word types of KAKU-TX (spec/30_encoding.md rule R70): each format of the spec
is a bit vector numbered from 0 at its least-significant end (spec/00_scope.md rule R10). -/

namespace Sys2Proof

/-- PAYLOAD, the 32 data bits `P[31:0]` (rule R71). -/
abbrev Payload := BitVec 32

/-- SYM, the 2-bit code of a symbol (rule R73). -/
abbrev SymCode := BitVec 2

/-- FRAME, 34 SYM fields, symbol `k` at bits `[2k+1 : 2k]` (rule R75). -/
abbrev Frame := BitVec 68

/-- CTRL, the control inputs `{rst, abort, start}` at one edge (rule R77). -/
abbrev CtrlWord := BitVec 3

/-- LUTE, a timing LUT entry `{level[0], units[UW-1:0]}` of `1 + UW` bits (rules R70 and R79). -/
abbrev LuteWord (uw : Nat) := BitVec (1 + uw)

/-- The width of `sym_idx` (spec/10_state.md rule R25). -/
abbrev SymIdx := BitVec 6

/-- The width of `phase` (spec/10_state.md rule R25). -/
abbrev PhaseIdx := BitVec 2

end Sys2Proof
end

