-- ==== Sys2Proof/Config.lean ====
section
/-! DEFINITION. The elaboration parameters of an instance (spec/00_scope.md rule R7), their
defaults, and the free values: constants with no body, so that nothing can be proved of them. -/

namespace Sys2Proof

/-- The parameters of one KAKU-TX instance, "fixed for the life of the instance" (rule R7).
`Params.wf` (Machine/Timing.lean) is the constraint column of the rule's table. -/
structure Params where
  /-- `UNIT_CYCLES`: clock cycles per base unit. -/
  unitCycles : Nat
  /-- `LONG_UNITS`: the duration of `long`, in base units. -/
  longUnits : Nat
  /-- `START_LOW_UNITS`: the low hold of the start symbol, in base units. -/
  startLowUnits : Nat
  /-- `GAP_UNITS`: the inter-frame hold after each attempt, in base units. -/
  gapUnits : Nat
  /-- `REP_W`: the width of `repeat_count` and of the repeat counter. -/
  repW : Nat
  /-- `ABORT_AT_BOUNDARY`: ABORT waits for the next symbol boundary. -/
  abortAtBoundary : Bool
  deriving DecidableEq, Repr

/-- The default instance for a given `UNIT_CYCLES` (rule R7: `UNIT_CYCLES` itself has no default). -/
def Params.defaults (unitCycles : Nat) : Params where
  unitCycles := unitCycles
  longUnits := 3
  startLowUnits := 9
  gapUnits := 60
  repW := 8
  abortAtBoundary := false

/-- Free value (log 2): `UNIT_CYCLES - 1` of the instance that `State.reset` describes. The spec
leaves `UNIT_CYCLES` open (92_eei_decisions.md D6) but for `UNIT_CYCLES ≥ 1`. -/
opaque Config.unitCyclesMinusOne : Nat

/-- The parameters of the instance that `State.reset` describes: the defaults of rule R7 and an
open `UNIT_CYCLES` of at least 1. -/
def Config.params : Params := Params.defaults (Config.unitCyclesMinusOne + 1)

/-- Free value (log 7): what `frame[2k+1 : 2k]` reads as for `k > 33`. Only a state from before the
first RESET holds such a `sym_idx` (93_implementation_defined.md, section 2). -/
opaque Config.symbolBeyondFrame : Frame → SymIdx → SymCode

/-- Free value (log 8): the LUTE word of a LUT entry that rule R78 marks '-', in a LUT of width
`UW`. -/
opaque Config.absentEntry : (uw : Nat) → SymCode → Nat → LuteWord uw

end Sys2Proof
end

