-- ==== Sys2Proof/Syntax.lean ====
section
/-! DEFINITION. The instructions of KAKU-TX: one constructor per row of spec/opcode_table.json. -/

namespace Sys2Proof

/-- The four symbols (spec/30_encoding.md rule R73, 90_conflicts.md C1). -/
inductive Sym where
  /-- `0`, data bit 0. -/
  | zero
  /-- `1`, data bit 1. -/
  | one
  /-- `B`, the start marker. -/
  | B
  /-- `E`, the stop marker. -/
  | E
  deriving DecidableEq, Repr

/-- The instruction formats of the opcode table (spec/30_encoding.md rule R70). -/
inductive Format where
  /-- ENC: a PAYLOAD, 32 bits. -/
  | enc
  /-- SYM: 2 bits. -/
  | sym
  /-- CTRL: 3 bits. -/
  | ctrl
  deriving DecidableEq, Repr

/-- The instructions. The operands of ENCODE are mathematical integers, since "a model takes a
command as a record of mathematical integers" (spec/40_encoder.md rule R102); `Instr.wellFormed`
says which of them the ports can hold. ABORT and RESET keep the CTRL bits they ignore. -/
inductive Instr where
  /-- ENCODE (rule R100). -/
  | encode (identity group state unit : Nat)
  /-- SYM_0 (rule R123). -/
  | sym0
  /-- SYM_1 (rule R124). -/
  | sym1
  /-- SYM_B (rule R121). -/
  | symB
  /-- SYM_E (rule R122). -/
  | symE
  /-- NOP, CTRL `000` (rule R153). -/
  | nop
  /-- START, CTRL `001` (rules R154, R155, R163); its operands are on the operand ports. -/
  | start
  /-- ABORT, CTRL `01x` (rules R156 to R158); `start` is the ignored bit. -/
  | abort (start : Bool)
  /-- RESET, CTRL `1xx` (rule R152); `abort` and `start` are the ignored bits. -/
  | reset (abort start : Bool)
  deriving DecidableEq, Repr

/-- The SYM instruction of a symbol. -/
def Sym.instr : Sym → Instr
  | .zero => .sym0
  | .one => .sym1
  | .B => .symB
  | .E => .symE

/-- The format of an instruction's encoding. -/
def Instr.format : Instr → Format
  | .encode _ _ _ _ => .enc
  | .sym0 => .sym
  | .sym1 => .sym
  | .symB => .sym
  | .symE => .sym
  | .nop => .ctrl
  | .start => .ctrl
  | .abort _ => .ctrl
  | .reset _ _ => .ctrl

end Sys2Proof
end

