-- ==== Sys2Proof/WellFormed.lean ====
section
/-! DEFINITION. Which instructions the ports can hold (spec/40_encoder.md rule R102). -/

namespace Sys2Proof

/-- The operand ranges of rule R102: 26 bits, one bit, one bit, 4 bits. A record outside them is an
InvalidArgument, refused at the boundary and never truncated. -/
def operandsFit (identity group state unit : Nat) : Bool :=
  decide (identity < 2 ^ 26) && decide (group < 2) && decide (state < 2) && decide (unit < 16)

/-- ENCODE's operands must fit the operand ports; every other instruction is always well formed
(spec/30_encoding.md rule R81: no SYM or CTRL value is reserved). -/
def Instr.wellFormed : Instr → Bool
  | .encode identity group state unit => operandsFit identity group state unit
  | .sym0 => true
  | .sym1 => true
  | .symB => true
  | .symE => true
  | .nop => true
  | .start => true
  | .abort _ => true
  | .reset _ _ => true

end Sys2Proof
end

