-- ==== Sys2Proof/Decode.lean ====
section
/-! DEFINITION. The decoder and the encoder of the opcode table (spec/30_encoding.md rules R71, R73,
R77). Every 32-bit payload, every 2-bit symbol code and every 3-bit control pattern is an
instruction (rule R81); what is rejected, by name, is a number that is no word of its format. -/

namespace Sys2Proof

/-- An encoded instruction: a word of one of the three instruction formats. The formats stand at
different places (operand ports, frame register, control inputs), so no word carries its format. -/
inductive EncWord where
  /-- A PAYLOAD word (rule R71). -/
  | payload (bits : Payload)
  /-- A SYM word (rule R73). -/
  | sym (bits : SymCode)
  /-- A CTRL word (rule R77). -/
  | ctrl (bits : CtrlWord)
  deriving DecidableEq, Repr

/-- The symbol of a SYM code (rule R73). -/
def Sym.ofCode (c : SymCode) : Sym :=
  match c.getLsbD 1, c.getLsbD 0 with
  | false, false => .zero
  | false, true => .one
  | true, false => .B
  | true, true => .E

/-- The SYM code of a symbol (rule R73). -/
def Sym.code : Sym → SymCode
  | .zero => 0b00#2
  | .one => 0b01#2
  | .B => 0b10#2
  | .E => 0b11#2

/-- The PAYLOAD word `{identity, group, state, unit}` (rule R71). -/
def payloadOf (identity : BitVec 26) (group state : BitVec 1) (unit : BitVec 4) : Payload :=
  identity ++ group ++ state ++ unit

/-- The decoder. CTRL patterns have the priority `rst` over `abort` over `start` (rule R77). -/
def decode : EncWord → Instr
  | .payload P =>
    .encode (P.extractLsb' 6 26).toNat (P.extractLsb' 5 1).toNat (P.extractLsb' 4 1).toNat
      (P.extractLsb' 0 4).toNat
  | .sym c => (Sym.ofCode c).instr
  | .ctrl c =>
    if c.getLsbD 2 then .reset (c.getLsbD 1) (c.getLsbD 0)
    else if c.getLsbD 1 then .abort (c.getLsbD 0)
    else if c.getLsbD 0 then .start
    else .nop

/-- A CTRL word from its three inputs (rule R77). -/
def ctrlWord (rst abort start : Bool) : CtrlWord :=
  BitVec.ofBool rst ++ BitVec.ofBool abort ++ BitVec.ofBool start

/-- Why a number is no instruction word. -/
inductive DecodeError where
  /-- The number has a bit above its format's width. -/
  | bitsAboveFormat
  deriving DecidableEq, Repr

/-- The width of a format, in bits (rule R70). -/
def Format.width : Format → Nat
  | .enc => 32
  | .sym => 2
  | .ctrl => 3

/-- Read any number as a word of a format: total, rejecting by name. -/
def wordOf (f : Format) (n : Nat) : Except DecodeError EncWord :=
  if n < 2 ^ f.width then
    .ok (match f with
      | .enc => .payload (BitVec.ofNat 32 n)
      | .sym => .sym (BitVec.ofNat 2 n)
      | .ctrl => .ctrl (BitVec.ofNat 3 n))
  else .error .bitsAboveFormat

/-- Decode any number in a format. -/
def decodeBits (f : Format) (n : Nat) : Except DecodeError Instr :=
  (wordOf f n).map decode

/-- The word that the host's number `w` of `nbits` bits stands for. A width of 32, 2 or 3 names
its format. One whole byte can hold a SYM or a CTRL word, and nothing in it says which: the first
row of the opcode table that matches is taken, with every bit above the row's width 0 (log 9). -/
def tableWord (nbits w : Nat) : Option EncWord :=
  if nbits = 32 then (wordOf .enc w).toOption
  else if nbits = 2 then (wordOf .sym w).toOption
  else if nbits = 3 then (wordOf .ctrl w).toOption
  else if nbits = 8 then
    match wordOf .sym w with
    | .ok word => some word
    | .error _ => (wordOf .ctrl w).toOption
  else none

/-- The instruction the decoder reads from the host's number `w` of `nbits` bits. -/
def decodeTableWord (nbits w : Nat) : Option Instr :=
  (tableWord nbits w).map decode

/-- The encoder. -/
def encode : Instr → EncWord
  | .encode identity group state unit =>
    .payload (payloadOf (BitVec.ofNat 26 identity) (BitVec.ofNat 1 group) (BitVec.ofNat 1 state)
      (BitVec.ofNat 4 unit))
  | .sym0 => .sym 0b00#2
  | .sym1 => .sym 0b01#2
  | .symB => .sym 0b10#2
  | .symE => .sym 0b11#2
  | .nop => .ctrl 0b000#3
  | .start => .ctrl 0b001#3
  | .abort start => .ctrl (ctrlWord false true start)
  | .reset abort start => .ctrl (ctrlWord true abort start)

/-- The format and the number of an encoded word. -/
def EncWord.bits : EncWord → Format × Nat
  | .payload P => (.enc, P.toNat)
  | .sym c => (.sym, c.toNat)
  | .ctrl c => (.ctrl, c.toNat)

/-- One row of spec/opcode_table.json. -/
structure OpcodeRow where
  mnemonic : String
  format : Format
  mask : Nat
  pattern : Nat
  deriving DecidableEq, Repr

/-- spec/opcode_table.json, row for row. -/
def opcodeTable : List OpcodeRow :=
  [ ⟨"ENCODE", .enc, 0x00000000, 0x00000000⟩,
    ⟨"SYM_0", .sym, 0b11, 0b00⟩,
    ⟨"SYM_1", .sym, 0b11, 0b01⟩,
    ⟨"SYM_B", .sym, 0b11, 0b10⟩,
    ⟨"SYM_E", .sym, 0b11, 0b11⟩,
    ⟨"NOP", .ctrl, 0b111, 0b000⟩,
    ⟨"START", .ctrl, 0b111, 0b001⟩,
    ⟨"ABORT", .ctrl, 0b110, 0b010⟩,
    ⟨"RESET", .ctrl, 0b100, 0b100⟩ ]

/-- The mnemonic of an instruction's row. -/
def Instr.mnemonic : Instr → String
  | .encode _ _ _ _ => "ENCODE"
  | .sym0 => "SYM_0"
  | .sym1 => "SYM_1"
  | .symB => "SYM_B"
  | .symE => "SYM_E"
  | .nop => "NOP"
  | .start => "START"
  | .abort _ => "ABORT"
  | .reset _ _ => "RESET"

/-- The word `b` (a format and a number) matches a row: its format is the row's, and its bits under
the row's mask are the row's pattern. -/
def OpcodeRow.matchesBits (row : OpcodeRow) (b : Format × Nat) : Bool :=
  decide (b.1 = row.format) && decide (b.2 &&& row.mask = row.pattern)

end Sys2Proof
end

