-- ==== Sys2Proof/Machine/State.lean ====
section
/-! DEFINITION. The state of KAKU-TX as plain data (spec/10_state.md), the reasons a step can be
refused, and the state after reset. -/

namespace Sys2Proof.Machine

/-- The sequencer state `st` (rule R26), one constructor per 2-bit code. -/
inductive SeqState where
  /-- IDLE, `00`: no transmission in progress. -/
  | idle
  /-- SEND, `01`: a symbol's phase is being emitted. -/
  | send
  /-- GAP, `10`: the inter-frame hold. -/
  | gap
  /-- The unused code `11`: "every rule treats it as IDLE". No rule writes it. -/
  | unused
  deriving DecidableEq, Repr

/-- How the last command ended (rules R33 and R196). -/
inductive Status where
  /-- NONE, `00`. -/
  | none
  /-- DONE, `01`. -/
  | done
  /-- ABORTED, `10`. -/
  | aborted
  /-- REJECTED, `11`. -/
  | rejected
  deriving DecidableEq, Repr

/-- The complete register state `s` (rule R25: "Nothing else is state"). The counters whose width is
a parameter are natural numbers (log 5); `Regs.fits` states their widths. -/
structure Regs where
  /-- The sequencer state (rule R26). -/
  st : SeqState
  /-- The latched frame (rule R27). -/
  frame : Frame
  /-- Attempts still to start after the current one (rule R28). -/
  repLeft : Nat
  /-- Clock cycles within the current base unit (rule R29). -/
  tick : Nat
  /-- Base units remaining in the current phase, the current one counted (rule R31). -/
  unitsLeft : Nat
  /-- The level of the output line (rule R32). -/
  line : Bool
  /-- The outcome of the last command (rule R33). -/
  status : Status
  /-- The position in the frame of the symbol being emitted (rule R34). -/
  symIdx : SymIdx
  /-- The index of the recipe entry being emitted (rule R34). -/
  phase : PhaseIdx
  /-- An ABORT waiting for the next symbol boundary (rule R35). -/
  abortPending : Bool
  deriving DecidableEq, Repr

/-- RESET_STATE, the register values of rule R38. -/
def Regs.reset : Regs where
  st := .idle
  frame := 0#68
  repLeft := 0
  tick := 0
  unitsLeft := 0
  line := false
  status := .none
  symIdx := 0#6
  phase := 0#2
  abortPending := false

/-- What the host drives on the input ports at one moment (rule R20). The operands are mathematical
integers, so that a record the ports cannot hold can be refused (spec/40_encoder.md rule R102).
`clk` says whether a rising edge of the clock ends the moment: with one, the record is `in[n]` of
spec/00_scope.md rule R9; without one, only the combinational ENC sees it (log 11). -/
structure Inputs where
  /-- A rising edge of `clk` ends this moment. -/
  clk : Bool
  /-- Synchronous reset. -/
  rst : Bool
  /-- The START command. -/
  start : Bool
  /-- The ABORT command. -/
  abort : Bool
  /-- RemoteIdentity. -/
  identity : Nat
  /-- GroupFlag. -/
  group : Nat
  /-- State, on or off. -/
  state : Nat
  /-- UnitIndex. -/
  unit : Nat
  /-- The number of attempts. -/
  repeatCount : Nat
  deriving DecidableEq, Repr

/-- Why the machine stops with a fault: never. "No behaviour of KAKU-TX is `stuck` or `fault`"
(93_implementation_defined.md, section 3), so there is no constructor and nothing raises one. -/
inductive Fault where
  deriving DecidableEq, Repr

/-- Why a step is refused. Each is a refusal the spec itself asks of a model, and safe: the machine
takes no step. -/
inductive Refusal where
  /-- An instruction with no meaning yet. Raised by no arm of `exec`. Safe. -/
  | notModelled (mnemonic : String)
  /-- Raised by `step` when a parameter is outside its constraint: "a model refuses to elaborate it"
  (spec/00_scope.md rule R7). Safe. -/
  | illFormedInstance
  /-- Raised by ENCODE and START when identity, group, state or unit does not fit its port: the host
  "must refuse such a record at its boundary and give it no step" (spec/40_encoder.md rule R102,
  spec/60_exceptions.md rule R191). Safe. -/
  | invalidArgument
  /-- Raised by START when the repeat count is greater than `2^REP_W - 1`
  (93_implementation_defined.md, section 3). Safe. -/
  | repeatCountTooWide
  deriving DecidableEq, Repr

/-- The machine: one instance's parameters, its registers, what is on its input ports in the current
cycle, and what the host drives after that. -/
structure State where
  /-- The model's own field: the elaboration parameters, which no step writes (rule R40; log 1). -/
  params : Params
  /-- `s[n]`, the registers of rule R25. -/
  regs : Regs
  /-- `in[n]`, the input ports (rule R20; log 3). -/
  ports : Inputs
  /-- The model's own field: what the host drives next; an edge with no entry is a NOP
  (spec/30_encoding.md rule R84; log 3). -/
  host : List Inputs
  deriving DecidableEq, Repr

/-- A cycle with no command, the operand ports at zero (the ports after reset, log 4). -/
def Inputs.none : Inputs where
  clk := true
  rst := false
  start := false
  abort := false
  identity := 0
  group := 0
  state := 0
  unit := 0
  repeatCount := 0

/-- The machine right after RESET (rule R38) for an instance with parameters `p`, the host driving
nothing. -/
def State.resetWith (p : Params) : State where
  params := p
  regs := Regs.reset
  ports := Inputs.none
  host := []

/-- The machine right after reset: the defaults of spec/00_scope.md rule R7, `UNIT_CYCLES` open. -/
def State.reset : State := State.resetWith Config.params

end Sys2Proof.Machine
end

