-- ==== Sys2Proof/Machine/Timing.lean ====
section
/-! DEFINITION. The constraints on the parameters, the constants derived from them (spec/00_scope.md
rules R7 and R8, spec/10_state.md rule R25) and the timing LUT (spec/30_encoding.md rule R78). -/

namespace Sys2Proof

/-- The constraint column of rule R7. `ABORT_AT_BOUNDARY` is 0 or 1 by its type. -/
def Params.wf (p : Params) : Bool :=
  decide (1 ≤ p.unitCycles) && decide (2 ≤ p.longUnits) && decide (1 ≤ p.startLowUnits) &&
    decide (1 ≤ p.gapUnits) && decide (1 ≤ p.repW)

/-- `DATA_UNITS`, the length of one data symbol (rule R8). -/
def Params.dataUnits (p : Params) : Nat := 3 + p.longUnits

/-- `FRAME_UNITS`, the length of the 34 symbols of a frame (rule R8). -/
def Params.frameUnits (p : Params) : Nat := 2 + p.startLowUnits + 32 * p.dataUnits

/-- `ATTEMPT_UNITS`, one frame and its gap (rule R8). -/
def Params.attemptUnits (p : Params) : Nat := p.frameUnits + p.gapUnits

/-- `ATTEMPT_CYCLES` (rule R8). -/
def Params.attemptCycles (p : Params) : Nat := p.attemptUnits * p.unitCycles

/-- The search of `clog2`: the least width from `w` on, within `fuel` tries, whose power of two
reaches `x`. -/
def clog2From (x : Nat) : Nat → Nat → Nat
  | 0, w => w
  | fuel + 1, w => if x ≤ 2 ^ w then w else clog2From x fuel (w + 1)

/-- `clog2(x)`, "the least `w ≥ 0` with `2^w ≥ x`" (spec/00_scope.md rule R10). -/
def clog2 (x : Nat) : Nat := clog2From x x 0

/-- The largest value a phase load or GAP entry puts into `units_left` (spec/10_state.md rule R25). -/
def Params.maxUnits (p : Params) : Nat := max p.longUnits (max p.startLowUnits p.gapUnits)

/-- `UW`, the width of `units_left` (spec/10_state.md rule R25). -/
def Params.uw (p : Params) : Nat := clog2 (p.maxUnits + 1)

/-- `TW`, the width of `tick` (spec/10_state.md rule R25). -/
def Params.tw (p : Params) : Nat := max 1 (clog2 p.unitCycles)

namespace Machine

/-- One entry of the timing LUT, its fields apart; `LutEntry.word` is its LUTE word (rule R79). -/
structure LutEntry where
  /-- The level of the line, high or low. -/
  level : Bool
  /-- The hold, in base units. -/
  units : Nat
  deriving DecidableEq, Repr

/-- The LUTE word `{level[0], units[UW-1:0]}` of an entry (rule R79). -/
def LutEntry.word (uw : Nat) (e : LutEntry) : LuteWord uw :=
  BitVec.ofBool e.level ++ BitVec.ofNat uw e.units

/-- The entry that a LUTE word stands for (rule R79). -/
def LutEntry.ofWord (uw : Nat) (w : LuteWord uw) : LutEntry :=
  ⟨w.getLsbD uw, (w.extractLsb' 0 uw).toNat⟩

/-- The pulse recipe of a symbol, the rows of rule R78's table. -/
def recipe (p : Params) : Sym → List LutEntry
  | .B => [⟨true, 1⟩, ⟨false, p.startLowUnits⟩]
  | .E => [⟨true, 1⟩, ⟨false, 0⟩]
  | .zero => [⟨true, 1⟩, ⟨false, 1⟩, ⟨true, 1⟩, ⟨false, p.longUnits⟩]
  | .one => [⟨true, 1⟩, ⟨false, p.longUnits⟩, ⟨true, 1⟩, ⟨false, 1⟩]

/-- `NPH(code)`, the number of entries of a recipe (rule R78). -/
def nph (p : Params) (c : Sym) : Nat := (recipe p c).length

/-- `LUT(code, q)` (rule R78). An entry the table marks '-' is a free value (log 8). -/
def lut (p : Params) (c : Sym) (q : Nat) : LutEntry :=
  ((recipe p c)[q]?).getD (LutEntry.ofWord p.uw (Config.absentEntry p.uw c.code q))

/-- `LUT(code, q)` as the LUT stores it, a LUTE word (rule R79). By `lutWord_entry` it holds the entry
whole: `UW` bits are enough for every entry of a well-formed instance (log 5). -/
def lutWord (p : Params) (c : Sym) (q : Nat) : LuteWord p.uw := (lut p c q).word p.uw

/-- The whole time of a symbol, in base units (rule R78, column "total units"). -/
def symbolUnits (p : Params) (c : Sym) : Nat := ((recipe p c).map LutEntry.units).sum

end Machine

end Sys2Proof
end

