-- ==== Sys2Proof/Machine/Operands.lean ====
section
/-! DEFINITION. The operand ports (spec/10_state.md rules R20 and R23), the encoder function ENC and
its inverse DEC (spec/40_encoder.md), and the symbols of a frame (spec/30_encoding.md rule R75). -/

namespace Sys2Proof.Machine

/-- The operand ports can hold the record's identity, group, state and unit (rule R102). -/
def Inputs.operandsOk (inp : Inputs) : Bool :=
  operandsFit inp.identity inp.group inp.state inp.unit

/-- The `repeat_count` port can hold the record's count (rule R20; 93_implementation_defined.md,
section 3). -/
def Inputs.repeatOk (p : Params) (inp : Inputs) : Bool :=
  decide (inp.repeatCount < 2 ^ p.repW)

/-- `CTRL[2:0] = {rst, abort, start}` at an edge (rule R77). -/
def Inputs.ctrl (inp : Inputs) : CtrlWord := ctrlWord inp.rst inp.abort inp.start

/-- The PAYLOAD word on the operand ports (rules R71 and R72). -/
def Inputs.payload (inp : Inputs) : Payload :=
  payloadOf (BitVec.ofNat 26 inp.identity) (BitVec.ofNat 1 inp.group) (BitVec.ofNat 1 inp.state)
    (BitVec.ofNat 4 inp.unit)

/-- The data symbol of a bit: `{0, b}` (rule R74). -/
def dataSym : Bool → Sym
  | false => .zero
  | true => .one

/-- The 32 data symbols of a payload in transmission order: symbol `k` is `P[32 - k]` for
`k = 1 .. 32` (rule R100). -/
def dataSymbols (P : Payload) : List Sym :=
  (List.range 32).map fun j => dataSym (P.getLsbD (31 - j))

/-- The symbols of a payload's frame in transmission order: `B`, the data, `E` (rule R100). -/
def frameSymbols (P : Payload) : List Sym := .B :: (dataSymbols P ++ [.E])

/-- Symbols packed two bits each, the first at the least-significant end (rule R75). -/
def packSymbols : List Sym → Nat
  | [] => 0
  | c :: cs => c.code.toNat + 4 * packSymbols cs

/-- The frame of a payload. -/
def frameOf (P : Payload) : Frame := BitVec.ofNat 68 (packSymbols (frameSymbols P))

/-- `ENC(identity, group, state, unit)` (rule R100). -/
def enc (identity : BitVec 26) (group state : BitVec 1) (unit : BitVec 4) : Frame :=
  frameOf (payloadOf identity group state unit)

/-- The code of symbol `k` of a frame, `frame[2k+1 : 2k]` (rule R75). There are 34 symbols; beyond
them the field is a free value (log 7). -/
def codeAt (f : Frame) (k : SymIdx) : SymCode :=
  if k ≤ 33#6 then f.extractLsb' (2 * k.toNat) 2 else Config.symbolBeyondFrame f k

/-- Symbol `k` of a frame. -/
def symAt (f : Frame) (k : SymIdx) : Sym := Sym.ofCode (codeAt f k)

/-- The payload bits that DEC reads, `P[32 - k] = f[2k]` for `k = 1 .. 32`, as a number: the first
`n` of them, most-significant first (rule R105). -/
def decodedPayload (f : Frame) : Nat → Nat
  | 0 => 0
  | n + 1 => 2 * decodedPayload f n + (f.getLsbD (2 * (n + 1))).toNat

/-- `DEC(f)`, the law that inverts ENC: identity, group, state and unit (rule R105). It is "a law for
testing, not a part of the hardware". -/
def dec (f : Frame) : BitVec 26 × BitVec 1 × BitVec 1 × BitVec 4 :=
  let P : Payload := BitVec.ofNat 32 (decodedPayload f 32)
  (P.extractLsb' 6 26, P.extractLsb' 5 1, P.extractLsb' 4 1, P.extractLsb' 0 4)

end Sys2Proof.Machine
end

