-- ==== Sys2Proof/Machine/Flags.lean ====
section
/-! DEFINITION. KAKU-TX "has no condition codes or arithmetic flags" (spec/10_state.md rule R37): its
indications are its output ports (rules R21 and R22) and the codes of `st` and `status`. -/

namespace Sys2Proof.Machine

/-- The 2-bit code of `st` (rule R26). -/
def SeqState.code : SeqState → BitVec 2
  | .idle => 0b00#2
  | .send => 0b01#2
  | .gap => 0b10#2
  | .unused => 0b11#2

/-- `idle(st)`: `st ∈ {IDLE, 11}` (spec/42_sequencer.md rule R151). -/
def SeqState.isIdle : SeqState → Bool
  | .idle => true
  | .send => false
  | .gap => false
  | .unused => true

/-- The 2-bit code of `status` (spec/60_exceptions.md rule R196). -/
def Status.code : Status → BitVec 2
  | .none => 0b00#2
  | .done => 0b01#2
  | .aborted => 0b10#2
  | .rejected => 0b11#2

/-- The output `tx` (rule R21). -/
def State.tx (s : State) : Bool := s.regs.line

/-- The output `busy`: `st ∈ {SEND, GAP}` (rule R21). -/
def State.busy (s : State) : Bool := !s.regs.st.isIdle

/-- The output `status` (rule R21). -/
def State.statusOut (s : State) : BitVec 2 := s.regs.status.code

/-- The combinational output `enc_frame`: ENC of the operand ports, whatever the registers hold
(rule R22). A record the ports cannot hold is on no port, so it has no frame. -/
def State.encFrame (s : State) : Option Frame :=
  if s.ports.operandsOk then some (frameOf s.ports.payload) else none

end Sys2Proof.Machine
end

