-- ==== Sys2Proof/Machine/Ops.lean ====
section
/-! DEFINITION. The named operations over the registers: the phase timer, NEXT, LOAD, ENTER_GAP,
GO_IDLE, START's latch, and the progress of one busy edge (spec/41_serializer.md,
spec/42_sequencer.md). GO_IDLE is "the only trap-like action" (spec/60_exceptions.md rule R193);
there is no return from it (rule R200). -/

namespace Sys2Proof.Machine

/-- The result of TIMER_STEP (rule R125). -/
inductive TimerResult where
  /-- CONTINUE: the phase goes on, with these registers. -/
  | running (r : Regs)
  /-- PHASE_END. -/
  | phaseEnd
  deriving DecidableEq, Repr

/-- TIMER_STEP (rule R125). -/
def timerStep (p : Params) (r : Regs) : TimerResult :=
  if r.tick < p.unitCycles - 1 then .running { r with tick := r.tick + 1 }
  else if 1 < r.unitsLeft then .running { r with tick := 0, unitsLeft := r.unitsLeft - 1 }
  else .phaseEnd

/-- What NEXT returns (rule R127). -/
inductive Successor where
  /-- PHASE(k, q). -/
  | phase (k : SymIdx) (q : PhaseIdx)
  /-- GAP, the end of the frame. -/
  | gap
  deriving DecidableEq, Repr

/-- The first entry with a non-zero duration, and its index counted from `q`: the loop of NEXT,
which skips zero-unit entries (rules R126 and R127). -/
def firstTimed : List LutEntry → Nat → Option Nat
  | [], _ => none
  | e :: es, q => if e.units = 0 then firstTimed es (q + 1) else some q

/-- `NEXT`, the phase successor of phase `q` of symbol `k`, whose symbol is `c` (rule R127). -/
def nextPhase (p : Params) (c : Sym) (k : SymIdx) (q : PhaseIdx) : Successor :=
  match firstTimed ((recipe p c).drop (q.toNat + 1)) (q.toNat + 1) with
  | some q' => .phase k (BitVec.ofNat 2 q')
  | none => if k < 33#6 then .phase (k + 1#6) 0#2 else .gap

/-- `LOAD(k, q)` of a symbol `c`: make phase `q` of symbol `k` current (rule R128). -/
def load (p : Params) (r : Regs) (c : Sym) (k : SymIdx) (q : PhaseIdx) : Regs :=
  { r with
    symIdx := k
    phase := q
    line := (lut p c q.toNat).level
    unitsLeft := (lut p c q.toNat).units
    tick := 0 }

/-- `GO_IDLE(code)`, "the single way out of a transmission, other than RESET" (rule R168): the line
goes low, the outcome is recorded, the counters are cleared and the frame is kept. -/
def goIdle (r : Regs) (code : Status) : Regs :=
  { r with
    st := .idle
    line := false
    status := code
    symIdx := 0#6
    phase := 0#2
    tick := 0
    unitsLeft := 0
    repLeft := 0
    abortPending := false }

/-- `ENTER_GAP()` (rule R161): `(sym_idx, phase)` and `rep_left` keep their values. -/
def enterGap (p : Params) (r : Regs) : Regs :=
  { r with st := .gap, line := false, unitsLeft := p.gapUnits, tick := 0 }

/-- A phase end in SEND, the symbol `c` ending a phase, with the abort request `req` (rules R157,
R160 and R161). -/
def sendPhaseEnd (p : Params) (r : Regs) (c : Sym) (req : Bool) : Regs :=
  match nextPhase p c r.symIdx r.phase with
  | .phase k q =>
    if k = r.symIdx then { load p r c k q with abortPending := req }
    else if p.abortAtBoundary && req then goIdle r .aborted
    else load p r (symAt r.frame k) k q
  | .gap =>
    if p.abortAtBoundary && req then goIdle r .aborted
    else enterGap p r

/-- A phase end in GAP: completion, or the next attempt from the same frame (rules R162 and R164). -/
def gapPhaseEnd (p : Params) (r : Regs) : Regs :=
  if r.repLeft = 0 then goIdle r .done
  else load p { r with repLeft := r.repLeft - 1, st := .send } (symAt r.frame 0#6) 0#6 0#2

/-- One busy edge that no RESET and no immediate ABORT ends: `c` is the symbol being emitted and
`req` the abort request (rule R151, from `req = ...` on). -/
def advance (p : Params) (r : Regs) (c : Sym) (req : Bool) : Regs :=
  if p.abortAtBoundary && decide (r.st = .gap) && req then goIdle r .aborted
  else
    match timerStep p r with
    | .running r' => { r' with abortPending := req }
    | .phaseEnd => if r.st = .send then sendPhaseEnd p r c req else gapPhaseEnd p r

/-- One edge with no command, the symbol at the program counter being `c`: IDLE does nothing, SEND and
GAP advance with the request already pending (rule R153). -/
def playEdge (p : Params) (r : Regs) (c : Sym) : Regs :=
  if r.st.isIdle then r else advance p r c r.abortPending

/-- The symbol at the program counter `sym_idx` (rule R34). -/
def Regs.currentSym (r : Regs) : Sym := symAt r.frame r.symIdx

/-- The effect of an accepted START: latch the frame, set the repeat counter and load the first phase
of `B` (rule R154). -/
def acceptStart (p : Params) (r : Regs) (inp : Inputs) : Regs :=
  load p
    { r with
      frame := frameOf inp.payload
      repLeft := inp.repeatCount - 1
      st := .send
      abortPending := false
      status := .none }
    (symAt (frameOf inp.payload) 0#6) 0#6 0#2

/-- START with operands that fit the ports (rules R154, R155 and R163). -/
def startEdge (p : Params) (r : Regs) (inp : Inputs) : Regs :=
  if r.st.isIdle then
    if inp.repeatCount = 0 then { r with status := .rejected } else acceptStart p r inp
  else playEdge p r r.currentSym

/-- ABORT: nothing in IDLE (rule R158), GO_IDLE at once in immediate mode (rule R156), a request in
boundary mode (rule R157). -/
def abortEdge (p : Params) (r : Regs) : Regs :=
  if r.st.isIdle then r
  else if p.abortAtBoundary then advance p r r.currentSym true
  else goIdle r .aborted

/-- The state with new registers: an edge changes nothing else. -/
def State.withRegs (s : State) (r : Regs) : State := { s with regs := r }

/-- The operand ports driven with four operands. -/
def Inputs.withOperands (inp : Inputs) (identity group state unit : Nat) : Inputs :=
  { inp with identity := identity, group := group, state := state, unit := unit }

/-- The state with new input ports. -/
def State.withPorts (s : State) (inp : Inputs) : State := { s with ports := inp }

end Sys2Proof.Machine
end

