-- ==== Sys2Proof/Machine/Encoder.lean ====
section
/-! DEFINITION. The meaning of ENCODE (spec/40_encoder.md). -/

namespace Sys2Proof.Machine

/-- ENCODE (rule R100): the operands on the operand ports, `enc_frame` is ENC of them at once
(`State.encFrame`), and no register is written. Operands no port can hold are refused (rule R102). -/
def execEncode (identity group state unit : Nat) (s : State) : Host.Outcome State Fault Refusal :=
  if operandsFit identity group state unit then
    .next (s.withPorts (s.ports.withOperands identity group state unit))
  else .refused .invalidArgument

end Sys2Proof.Machine
end

