-- ==== Sys2Proof/Machine/Sequencer.lean ====
section
/-! DEFINITION. The meanings of the host commands (spec/42_sequencer.md rules R152 to R164). -/

namespace Sys2Proof.Machine

/-- NOP (rule R153): nothing in IDLE; in SEND and GAP the timer and the sequencer advance. -/
def execNop (s : State) : Host.Outcome State Fault Refusal :=
  .next (s.withRegs (playEdge s.params s.regs s.regs.currentSym))

/-- START (rules R154, R155 and R163), with the operands on the ports. A record the ports cannot hold
is refused, whatever the sequencer does (rule R102; 93_implementation_defined.md, section 3). -/
def execStart (s : State) : Host.Outcome State Fault Refusal :=
  if s.ports.operandsOk then
    if s.ports.repeatOk s.params then .next (s.withRegs (startEdge s.params s.regs s.ports))
    else .refused .repeatCountTooWide
  else .refused .invalidArgument

/-- ABORT (rules R156 to R158); a START at the same edge is dropped. -/
def execAbort (_start : Bool) (s : State) : Host.Outcome State Fault Refusal :=
  .next (s.withRegs (abortEdge s.params s.regs))

/-- RESET (rule R152): every register takes its reset value, whatever the other inputs. -/
def execReset (_abort _start : Bool) (s : State) : Host.Outcome State Fault Refusal :=
  .next (s.withRegs Regs.reset)

end Sys2Proof.Machine
end

