-- ==== Sys2Proof/Machine/Serializer.lean ====
section
/-! DEFINITION. The meanings of the four symbols (spec/41_serializer.md rules R121 to R124). A symbol
lasts many clock edges; each meaning is one edge of its symbol at the program counter, and the
recipe is in the timing LUT (`recipe`). -/

namespace Sys2Proof.Machine

/-- SYM_0 (rule R123): high 1, low 1, high 1, low `LONG_UNITS`, then the next symbol. -/
def execSym0 (s : State) : Host.Outcome State Fault Refusal :=
  .next (s.withRegs (playEdge s.params s.regs .zero))

/-- SYM_1 (rule R124): high 1, low `LONG_UNITS`, high 1, low 1, then the next symbol. -/
def execSym1 (s : State) : Host.Outcome State Fault Refusal :=
  .next (s.withRegs (playEdge s.params s.regs .one))

/-- SYM_B (rule R121): high 1, low `START_LOW_UNITS`, then the next symbol. -/
def execSymB (s : State) : Host.Outcome State Fault Refusal :=
  .next (s.withRegs (playEdge s.params s.regs .B))

/-- SYM_E (rule R122): high 1, the zero-unit entry skipped, then the gap. -/
def execSymE (s : State) : Host.Outcome State Fault Refusal :=
  .next (s.withRegs (playEdge s.params s.regs .E))

end Sys2Proof.Machine
end

