-- ==== Sys2Proof/Machine/Dispatch.lean ====
section
/-! DEFINITION. One arm per constructor of Instr. -/

namespace Sys2Proof.Machine

def exec (i : Instr) (s : State) : Host.Outcome State Fault Refusal :=
  match i with
  | .encode identity group state unit => Sys2Proof.Machine.execEncode identity group state unit s
  | .sym0 => Sys2Proof.Machine.execSym0 s
  | .sym1 => Sys2Proof.Machine.execSym1 s
  | .symB => Sys2Proof.Machine.execSymB s
  | .symE => Sys2Proof.Machine.execSymE s
  | .nop => Sys2Proof.Machine.execNop s
  | .start => Sys2Proof.Machine.execStart s
  | .abort start => Sys2Proof.Machine.execAbort start s
  | .reset abort start => Sys2Proof.Machine.execReset abort start s

end Sys2Proof.Machine
end

