-- ==== Sys2Proof/Machine/Fetch.lean ====
section
/-! DEFINITION. Which instruction the next step runs, what the host drives afterwards, and how a
given instruction is put where the step fetches it. -/

namespace Sys2Proof.Machine

/-- The word the next step runs. Without a rising edge only ENC acts, on the payload at the operand
ports (spec/40_encoder.md rule R101). At an edge the control inputs are decoded (spec/30_encoding.md
rule R77); an edge with no command in SEND runs the symbol at the program counter
(spec/10_state.md rule R34, spec/41_serializer.md rule R120). There is no word where the operands fit
no port. -/
def fetchWord (s : State) : Option EncWord :=
  if s.ports.clk then
    if s.ports.ctrl = 0b000#3 ∧ s.regs.st = .send then
      some (.sym (codeAt s.regs.frame s.regs.symIdx))
    else some (.ctrl s.ports.ctrl)
  else if s.ports.operandsOk then some (.payload s.ports.payload)
  else none

/-- The ports when the host has no line for an edge: a NOP, the operand ports left as they are
(spec/30_encoding.md rule R84: they are don't-care; log 3). -/
def Inputs.quiet (inp : Inputs) : Inputs :=
  { inp with clk := true, rst := false, start := false, abort := false }

/-- The next cycle's inputs: the host's next record, or a NOP when it has none. -/
def State.nextInputs (s : State) : State :=
  match s.host with
  | [] => { s with ports := s.ports.quiet }
  | inp :: rest => { s with ports := inp, host := rest }

/-- The frame with symbol `k` replaced. -/
def setSym (f : Frame) (k : SymIdx) (c : SymCode) : Frame :=
  (f &&& ~~~(0b11#68 <<< (2 * k.toNat))) ||| (c.setWidth 68 <<< (2 * k.toNat))

/-- The registers in which the symbol `c` starts at the program counter: it stands in the frame there
and its first phase is loaded (spec/41_serializer.md rule R128). -/
def startSymbol (p : Params) (r : Regs) (c : SymCode) : Regs :=
  let k := if r.symIdx ≤ 33#6 then r.symIdx else 0#6
  load p { r with frame := setSym r.frame k c, st := .send } (Sym.ofCode c) k 0#2

/-- The state in which the next step fetches the word: a payload on the operand ports with no clock
edge; a control word on the control inputs at an edge; a symbol at the program counter of a running
transmission, at an edge with no command. -/
def State.withWord (s : State) : EncWord → State
  | .payload P =>
    { s with ports :=
        { s.ports with
          clk := false
          identity := (P.extractLsb' 6 26).toNat
          group := (P.extractLsb' 5 1).toNat
          state := (P.extractLsb' 4 1).toNat
          unit := (P.extractLsb' 0 4).toNat } }
  | .sym c => { s with ports := s.ports.quiet, regs := startSymbol s.params s.regs c }
  | .ctrl c =>
    { s with ports :=
        { s.ports with
          clk := true
          rst := c.getLsbD 2
          abort := c.getLsbD 1
          start := c.getLsbD 0 } }

end Sys2Proof.Machine
end

