-- ==== Sys2Proof/Machine/Step.lean ====
section
/-! DEFINITION. One step: the instruction fetched is decoded and run, then the host drives its next
inputs. At a rising edge this is `s[n+1] = step(s[n], in[n])` (spec/00_scope.md rule R9). -/

namespace Sys2Proof.Machine

/-- One step of the machine. An instance outside the constraints of spec/00_scope.md rule R7 is
refused, and so is a payload that fits no port (spec/40_encoder.md rule R102). -/
def step (s : State) : Host.Outcome State Fault Refusal :=
  if s.params.wf then
    match fetchWord s with
    | none => .refused .invalidArgument
    | some w =>
      match exec (decode w) s with
      | .next t => .next t.nextInputs
      | .fault f => .fault f
      | .refused r => .refused r
  else .refused .illFormedInstance

/-- `s` with the instruction whose bits are `w` stored where the next step fetches it. -/
def State.withFetchWord (s : State) (nbits w : Nat) : State :=
  match tableWord nbits w with
  | some word => s.withWord word
  | none => s

end Sys2Proof.Machine
end

