-- ==== Sys2Proof/Machine/Program.lean ====
section
/-! DEFINITION. Host programs (spec/30_encoding.md rules R84 and R85): the command lines
`@<n> <command>`, their expansion into one input record per edge, the notation as text, and the
pseudo-commands WAIT, SEND, ON, OFF and SEND_UNITS. These are host-side notation, not hardware. -/

namespace Sys2Proof.Machine

/-- A command at one edge (rule R84). -/
inductive Command where
  | reset
  | abort
  | nop
  | start (identity group state unit repeatCount : Nat)
  deriving DecidableEq, Repr

/-- A line `@<n> <command>`: the command is sampled at edge `n` (rule R84). -/
structure ProgramLine where
  edge : Nat
  command : Command
  deriving DecidableEq, Repr

/-- The ports at an edge with a command; a command that carries no operands leaves the operand ports
as they were (rule R84: they are don't-care; log 3). -/
def Command.inputs (prev : Inputs) : Command → Inputs
  | .reset => { prev.quiet with rst := true }
  | .abort => { prev.quiet with abort := true }
  | .nop => prev.quiet
  | .start identity group state unit repeatCount =>
    { clk := true, rst := false, start := true, abort := false, identity := identity,
      group := group, state := state, unit := unit, repeatCount := repeatCount }

/-- The command of edge `n`: the first line for it, and NOP with no line (rule R84). -/
def commandAt (lines : List ProgramLine) (n : Nat) : Command :=
  match lines.find? (fun l => l.edge == n) with
  | some l => l.command
  | none => .nop

/-- The input records of `count` edges from edge `n` on. -/
def expandFrom (lines : List ProgramLine) (prev : Inputs) : Nat → Nat → List Inputs
  | 0, _ => []
  | count + 1, n =>
    let inp := (commandAt lines n).inputs prev
    inp :: expandFrom lines inp count (n + 1)

/-- The state with a host program's records for edges `0 .. count` at its ports and in its host
list. -/
def State.withProgram (s : State) (lines : List ProgramLine) (count : Nat) : State :=
  let inp := (commandAt lines 0).inputs s.ports
  { s with ports := inp, host := expandFrom lines inp count 1 }

/-- A host-side operation: a command at one edge, or WAIT (rule R85). -/
inductive HostOp where
  | command (c : Command)
  | wait
  deriving DecidableEq, Repr

/-- `SEND id g s u r`: START at one edge, then WAIT (rule R85). -/
def sendOps (identity group state unit repeatCount : Nat) : List HostOp :=
  [.command (.start identity group state unit repeatCount), .wait]

/-- `ON id u r` is `SEND id 0 1 u r` (rule R85). -/
def onOps (identity unit repeatCount : Nat) : List HostOp :=
  sendOps identity 0 1 unit repeatCount

/-- `OFF id u r` is `SEND id 0 0 u r` (rule R85). -/
def offOps (identity unit repeatCount : Nat) : List HostOp :=
  sendOps identity 0 0 unit repeatCount

/-- `SEND_UNITS id g s [u1, u2, ...] r`: one SEND per unit, in order (rule R85). -/
def sendUnitsOps (identity group state : Nat) (units : List Nat) (repeatCount : Nat) : List HostOp :=
  (units.map fun u => sendOps identity group state u repeatCount).flatten

/-- One edge at which the host drives a command and nothing is queued. -/
def issue (c : Command) (s : State) : Host.Outcome State Fault Refusal :=
  step { s with ports := c.inputs s.ports, host := [] }

/-- WAIT: NOP at every edge until the first cycle with `busy = 0` (rule R85), within `fuel` edges. -/
def waitIdle : Nat → State → Host.Outcome State Fault Refusal
  | 0, s => .next s
  | fuel + 1, s =>
    if s.busy then
      match issue .nop s with
      | .next t => waitIdle fuel t
      | .fault f => .fault f
      | .refused r => .refused r
    else .next s

/-- Run host operations, each WAIT within `fuel` edges. -/
def runOps (fuel : Nat) : List HostOp → State → Host.Outcome State Fault Refusal
  | [], s => .next s
  | op :: rest, s =>
    match (match op with
      | .command c => issue c s
      | .wait => waitIdle fuel s) with
    | .next t => runOps fuel rest t
    | .fault f => .fault f
    | .refused r => .refused r

/-- The value of a digit, in bases up to 16. -/
def digitOf (ch : Char) : Option Nat :=
  let n := ch.toNat
  if 48 ≤ n && n ≤ 57 then some (n - 48)
  else if 97 ≤ n && n ≤ 102 then some (n - 87)
  else if 65 ≤ n && n ≤ 70 then some (n - 55)
  else none

/-- The digits of a number in a base, after the value `acc` of those before. -/
def digitsOf (base : Nat) : List Char → Nat → Option Nat
  | [], acc => some acc
  | ch :: rest, acc =>
    match digitOf ch with
    | some d => if d < base then digitsOf base rest (base * acc + d) else none
    | none => none

/-- A number in decimal, or in hexadecimal with the prefix `0x` (rule R84). -/
def numberOf : List Char → Option Nat
  | [] => none
  | '0' :: 'x' :: ch :: rest => digitsOf 16 (ch :: rest) 0
  | text => digitsOf 10 text 0

/-- The rest of a text after a given beginning. -/
def afterBeginning : List Char → List Char → Option (List Char)
  | [], text => some text
  | _ :: _, [] => none
  | b :: bs, ch :: rest => if b = ch then afterBeginning bs rest else none

/-- The words of a line, split at spaces; `word` is the word being read, in reverse. -/
def wordsOf : List Char → List Char → List (List Char)
  | [], word => if word.isEmpty then [] else [word.reverse]
  | ch :: rest, word =>
    if ch = ' ' then
      if word.isEmpty then wordsOf rest [] else word.reverse :: wordsOf rest []
    else wordsOf rest (ch :: word)

/-- The number of a word `<name>=<number>`. -/
def fieldOf (name : String) (word : List Char) : Option Nat :=
  match afterBeginning name.toList word with
  | some text => numberOf text
  | none => none

/-- A command from its words (rule R84). -/
def commandOfWords (words : List (List Char)) : Option Command :=
  match words with
  | [w] =>
    if w = "RESET".toList then some .reset
    else if w = "ABORT".toList then some .abort
    else if w = "NOP".toList then some .nop
    else none
  | [w, i, g, s, u, r] =>
    if w = "START".toList then
      match fieldOf "id=" i, fieldOf "g=" g, fieldOf "s=" s, fieldOf "u=" u, fieldOf "r=" r with
      | some i, some g, some s, some u, some r => some (.start i g s u r)
      | _, _, _, _, _ => none
    else none
  | _ => none

/-- A line `@<n> <command>` from its characters (rule R84). -/
def lineOf (text : List Char) : Option ProgramLine :=
  match wordsOf text [] with
  | ('@' :: n) :: words =>
    match numberOf n, commandOfWords words with
    | some n, some c => some ⟨n, c⟩
    | _, _ => none
  | _ => none

end Sys2Proof.Machine
end

