-- ==== Sys2Proof/Machine/Reference.lean ====
section
/-! DEFINITION. STEP, the pseudocode of spec/42_sequencer.md rule R151 written down branch by branch:
"the only definition of KAKU-TX's sequential behaviour". `step` does not call it; that the two agree
is a statement. -/

namespace Sys2Proof.Machine

/-- `LOAD(k, p)` reading the symbol in the frame of the registers given (rule R128). -/
def loadFrom (p : Params) (r : Regs) (k : SymIdx) (q : PhaseIdx) : Regs :=
  load p r (symAt r.frame k) k q

/-- `step(s, in)` of rule R151. -/
def stepR151 (p : Params) (s : Regs) (inp : Inputs) : Regs :=
  if inp.rst then Regs.reset
  else if s.st.isIdle then
    if inp.abort then s
    else if !inp.start then s
    else if inp.repeatCount = 0 then { s with status := .rejected }
    else
      loadFrom p
        { s with
          frame := frameOf inp.payload
          repLeft := inp.repeatCount - 1
          st := .send
          abortPending := false
          status := .none } 0#6 0#2
  else if !p.abortAtBoundary && inp.abort then goIdle s .aborted
  else
    let req := s.abortPending || inp.abort
    if p.abortAtBoundary && decide (s.st = .gap) && req then goIdle s .aborted
    else
      match timerStep p s with
      | .running s' => { s' with abortPending := req }
      | .phaseEnd =>
        if s.st = .send then
          match nextPhase p (symAt s.frame s.symIdx) s.symIdx s.phase with
          | .phase k q =>
            if k = s.symIdx then { loadFrom p s k q with abortPending := req }
            else if p.abortAtBoundary && req then goIdle s .aborted
            else loadFrom p s k q
          | .gap =>
            if p.abortAtBoundary && req then goIdle s .aborted
            else enterGap p s
        else if s.repLeft = 0 then goIdle s .done
        else loadFrom p { s with repLeft := s.repLeft - 1, st := .send } 0#6 0#2

end Sys2Proof.Machine
end

