-- ==== Sys2Proof/Machine/Text.lean ====
section
/-! DEFINITION. The text form of a frame (spec/30_encoding.md rules R12 and R76) and the refusals of
a frame given as text (rule R81; 93_implementation_defined.md, section 3). -/

namespace Sys2Proof.Machine

/-- The character of a symbol (spec/00_scope.md rule R12). -/
def symChar : Sym → Char
  | .zero => '0'
  | .one => '1'
  | .B => 'B'
  | .E => 'E'

/-- The symbol of a character; any other character has none (rule R81, 90_conflicts.md C6). -/
def symOfChar (ch : Char) : Option Sym :=
  if ch = '0' then some .zero
  else if ch = '1' then some .one
  else if ch = 'B' then some .B
  else if ch = 'E' then some .E
  else none

/-- The 34 symbols of a frame in transmission order. -/
def symbolsOf (f : Frame) : List Sym := (List.range 34).map fun k => symAt f (BitVec.ofNat 6 k)

/-- `text(frame)` as its characters `c_0 c_1 ... c_33` (rule R76). -/
def textOf (f : Frame) : List Char := (symbolsOf f).map symChar

/-- `binary_N(v)`: the `N` characters of `v` in base 2, zero-padded, most-significant first
(spec/00_scope.md rule R10). -/
def binary (n v : Nat) : List Char :=
  (List.range n).map fun i => if v.testBit (n - 1 - i) then '1' else '0'

/-- Why a frame given as text is refused. -/
inductive TextError where
  /-- A character outside `B`, `E`, `0`, `1` (rule R81). -/
  | badCharacter
  /-- Not 34 characters long (spec/40_encoder.md rule R103). -/
  | badLength
  /-- Not `B`, 32 data symbols and `E` (spec/40_encoder.md rule R103). -/
  | badMarkers
  deriving DecidableEq, Repr

/-- The symbols of a text, all of them or none. -/
def symsOfChars : List Char → Option (List Sym)
  | [] => some []
  | ch :: rest =>
    match symOfChar ch, symsOfChars rest with
    | some c, some cs => some (c :: cs)
    | _, _ => none

/-- A data symbol: `code[1] = 0` (spec/30_encoding.md rule R74). -/
def isData (c : Sym) : Bool := !c.code.getLsbD 1

/-- The markers of rule R103: one `B` first, one `E` last, data between. -/
def markersOk (cs : List Sym) : Bool :=
  decide (cs.head? = some .B) && decide (cs.getLast? = some .E) && (cs.tail.dropLast).all isData

/-- Accept a frame as text, or refuse it by name. -/
def frameOfText (text : List Char) : Except TextError Frame :=
  match symsOfChars text with
  | none => .error .badCharacter
  | some cs =>
    if cs.length ≠ 34 then .error .badLength
    else if markersOk cs then .ok (BitVec.ofNat 68 (packSymbols cs))
    else .error .badMarkers

end Sys2Proof.Machine
end

