-- ==== Sys2Proof/Machine/Waveform.lean ====
section
/-! DEFINITION. Waveforms (spec/00_scope.md rule R13): the recipe of a symbol, a frame and an attempt as
lists of (level, units), their samples in cycles, and the trace of `tx` that a run emits. -/

namespace Sys2Proof.Machine

/-- The (level, units) pairs a symbol emits: its recipe without the zero-unit entry (rule R126). -/
def symbolWave (p : Params) (c : Sym) : List (Bool × Nat) :=
  ((recipe p c).filter fun e => decide (e.units ≠ 0)).map fun e => (e.level, e.units)

/-- `R(b)`, the waveform of a data bit (spec/41_serializer.md rule R131). -/
def bitWave (p : Params) (b : Bool) : List (Bool × Nat) :=
  if b then [(true, 1), (false, p.longUnits), (true, 1), (false, 1)]
  else [(true, 1), (false, 1), (true, 1), (false, p.longUnits)]

/-- `W(f)`, the waveform of a frame before the gap (rule R131). -/
def frameWave (p : Params) (f : Frame) : List (Bool × Nat) :=
  [(true, 1), (false, p.startLowUnits)] ++
    ((List.range 32).map fun j => bitWave p (f.getLsbD (2 * (j + 1)))).flatten ++ [(true, 1)]

/-- One attempt: `W(f) ++ (0, GAP_UNITS)` (spec/42_sequencer.md rule R165). -/
def attemptWave (p : Params) (f : Frame) : List (Bool × Nat) :=
  frameWave p f ++ [(false, p.gapUnits)]

/-- A waveform cycle by cycle: `(L, k)` is `k × UNIT_CYCLES` cycles of `L` (rule R13). -/
def samples (p : Params) (w : List (Bool × Nat)) : List Bool :=
  (w.map fun e => List.replicate (e.2 * p.unitCycles) e.1).flatten

/-- The units of a waveform. -/
def waveUnits (w : List (Bool × Nat)) : Nat := (w.map Prod.snd).sum

/-- The high pulses of a waveform. -/
def highPulses (w : List (Bool × Nat)) : Nat := (w.filter Prod.fst).length

/-- `k` steps, as far as they go without a stop. -/
def steps : Nat → State → Option State
  | 0, s => some s
  | k + 1, s =>
    match step s with
    | .next t => steps k t
    | .fault _ => none
    | .refused _ => none

/-- `tx` in the `k` states after `s`. -/
def txTrace : Nat → State → List Bool
  | 0, _ => []
  | k + 1, s =>
    match step s with
    | .next t => t.tx :: txTrace k t
    | .fault _ => []
    | .refused _ => []

/-- `busy` in the `k` states after `s`. -/
def busyTrace : Nat → State → List Bool
  | 0, _ => []
  | k + 1, s =>
    match step s with
    | .next t => t.busy :: busyTrace k t
    | .fault _ => []
    | .refused _ => []

end Sys2Proof.Machine
end

