-- ==== Sys2Proof/Safety.lean ====
section
/-! DEFINITION. What counts as a good state: the invariants of spec/10_state.md rule R36, the widths
of rule R25, and the inputs of an undisturbed cycle. -/

namespace Sys2Proof.Machine

/-- The parameter-wide counters fit their widths: `rep_left` in `REP_W` bits, `tick` in `TW`,
`units_left` in `UW` (rule R25). Every register state of the hardware satisfies it, before reset
too. -/
abbrev Regs.fits (p : Params) (r : Regs) : Prop :=
  r.repLeft < 2 ^ p.repW ∧ r.tick < 2 ^ p.tw ∧ r.unitsLeft < 2 ^ p.uw

/-- IDLE as rule R36 has it: the line low and every counter zero. -/
abbrev Regs.idleOk (r : Regs) : Prop :=
  r.line = false ∧ r.symIdx = 0#6 ∧ r.phase = 0#2 ∧ r.tick = 0 ∧ r.unitsLeft = 0 ∧
    r.repLeft = 0 ∧ r.abortPending = false

/-- The frame has its markers in place: `frame[1:0] = 10` and `frame[67:66] = 11` (rule R36). -/
abbrev Regs.markersOk (r : Regs) : Prop :=
  r.frame.extractLsb' 0 2 = 0b10#2 ∧ r.frame.extractLsb' 66 2 = 0b11#2

/-- SEND as rule R36 has it. -/
abbrev Regs.sendOk (p : Params) (r : Regs) : Prop :=
  r.symIdx ≤ 33#6 ∧ r.phase.toNat < nph p r.currentSym ∧
    1 ≤ (lut p r.currentSym r.phase.toNat).units ∧
    r.line = (lut p r.currentSym r.phase.toNat).level ∧
    1 ≤ r.unitsLeft ∧ r.unitsLeft ≤ (lut p r.currentSym r.phase.toNat).units ∧
    r.tick < p.unitCycles ∧ r.markersOk

/-- GAP as rule R36 has it, and the frame markers that the next attempt relies on. -/
abbrev Regs.gapOk (p : Params) (r : Regs) : Prop :=
  r.line = false ∧ 1 ≤ r.unitsLeft ∧ r.unitsLeft ≤ p.gapUnits ∧ r.tick < p.unitCycles ∧
    r.symIdx = 33#6 ∧ r.phase = 0#2 ∧ r.markersOk

/-- The invariants of rule R36, with the range of `rep_left` (rule R25), `abort_pending` of rule R35,
and the code `11` that no rule writes (rule R26). -/
abbrev Regs.Inv (p : Params) (r : Regs) : Prop :=
  r.st ≠ .unused ∧
    (r.st = .idle → r.idleOk) ∧ (r.st = .send → r.sendOk p) ∧ (r.st = .gap → r.gapOk p) ∧
    (r.status ≠ .none → r.st = .idle) ∧ r.repLeft + 2 ≤ 2 ^ p.repW ∧
    (p.abortAtBoundary = false → r.abortPending = false)

/-- An instance within its constraints whose registers satisfy rule R36. -/
abbrev State.Inv (s : State) : Prop := s.params.wf = true ∧ s.regs.Inv s.params

/-- A phase end: TIMER_STEP's last branch, the last cycle of the last unit (spec/41_serializer.md rule
R125). -/
abbrev Regs.phaseEnds (p : Params) (r : Regs) : Prop :=
  p.unitCycles - 1 ≤ r.tick ∧ r.unitsLeft ≤ 1

/-- The registers at the first cycle of a phase: position `(k, q)`, the level and the units given, the
rest as before. -/
def Regs.atPhase (r : Regs) (k : SymIdx) (q : PhaseIdx) (level : Bool) (units : Nat) : Regs :=
  { r with symIdx := k, phase := q, line := level, unitsLeft := units, tick := 0 }

/-- The registers at the first cycle of a gap (spec/42_sequencer.md rule R161). -/
def Regs.atGap (r : Regs) (units : Nat) : Regs :=
  { r with st := .gap, line := false, unitsLeft := units, tick := 0 }

/-- The registers after a transmission that ended with `code`: IDLE with every counter zero and the
frame kept (spec/42_sequencer.md rule R168). -/
def Regs.ended (r : Regs) (code : Status) : Regs where
  st := .idle
  frame := r.frame
  repLeft := 0
  tick := 0
  unitsLeft := 0
  line := false
  status := code
  symIdx := 0#6
  phase := 0#2
  abortPending := false

/-- A cycle that disturbs no transmission: a clock edge with no RESET and no ABORT, and operands that
fit the ports if START is driven. -/
abbrev Inputs.undisturbed (p : Params) (inp : Inputs) : Prop :=
  inp.clk = true ∧ inp.rst = false ∧ inp.abort = false ∧
    (inp.start = true → inp.operandsOk = true ∧ inp.repeatOk p = true)

/-- A START that is accepted now: an edge in IDLE, no RESET, no ABORT, `start`, operands and a count
that fit, and a count of at least 1 (rule R154). -/
abbrev State.accepts (s : State) : Prop :=
  s.params.wf = true ∧ s.regs.st.isIdle = true ∧ s.ports.clk = true ∧ s.ports.rst = false ∧
    s.ports.abort = false ∧ s.ports.start = true ∧ s.ports.operandsOk = true ∧
    s.ports.repeatOk s.params = true ∧ 1 ≤ s.ports.repeatCount

end Sys2Proof.Machine
end

