-- ==== Sys2Proof/Certificates/Slice0/Obligations.lean ====
section
/-! DEFINITION. The statements for the provers. -/

open Sys2Proof Sys2Proof.Machine

/-! ### Encodings -/

/-- No bit of an encoding is dropped (spec/30_encoding.md rules R71, R73 and R77). -/
def Obligations.DecodeInvertsEncode : Prop :=
  ∀ i : Instr, i.wellFormed = true → decode (encode i) = i

/-- Each word has one meaning: no two words of a format decode to one instruction. -/
def Obligations.EncodeInvertsDecode : Prop :=
  ∀ w : EncWord, encode (decode w) = w

/-- The CTRL decode and its priority (rule R77). -/
def Obligations.ControlPatternsDecode : Prop :=
  ∀ rst abort start : Bool,
    decode (.ctrl (BitVec.ofBool rst ++ BitVec.ofBool abort ++ BitVec.ofBool start)) =
      if rst then .reset abort start
      else if abort then .abort start
      else if start then .start
      else .nop

/-- A few words written out from the spec's encodings. -/
def Obligations.SpecWordsDecode : Prop :=
  decode (.payload 0b00000000000000000000000001000101#32) = .encode 1 0 0 5 ∧
  decode (.payload 0b11000000000000000000000001101001#32) = .encode 0x3000001 1 0 9 ∧
  decode (.sym 0b00#2) = .sym0 ∧ decode (.sym 0b01#2) = .sym1 ∧
  decode (.sym 0b10#2) = .symB ∧ decode (.sym 0b11#2) = .symE ∧
  decode (.ctrl 0b000#3) = .nop ∧ decode (.ctrl 0b001#3) = .start ∧
  decode (.ctrl 0b011#3) = .abort true ∧ decode (.ctrl 0b100#3) = .reset false false

/-- Two rows of the opcode table of one format match no common word. -/
def Obligations.OpcodeRowsDisjoint : Prop :=
  ∀ f : Format, ∀ n : Nat, n < 2 ^ f.width →
    (opcodeTable.filter fun row => row.matchesBits (f, n)).length = 1

/-! ### ENC -/

/-- The frame layout of rule R75 and the payload layout of rule R71, bit for bit. -/
def Obligations.FrameLayout : Prop :=
  ∀ (identity : BitVec 26) (group state : BitVec 1) (unit : BitVec 4),
    let P := payloadOf identity group state unit
    let f := enc identity group state unit
    P.extractLsb' 6 26 = identity ∧ P.extractLsb' 5 1 = group ∧ P.extractLsb' 4 1 = state ∧
    P.extractLsb' 0 4 = unit ∧
    f.extractLsb' 0 2 = 0b10#2 ∧ f.extractLsb' 66 2 = 0b11#2 ∧
    (∀ k : Nat, 1 ≤ k → k ≤ 32 →
      f.getLsbD (2 * k + 1) = false ∧ f.getLsbD (2 * k) = P.getLsbD (32 - k)) ∧
    f.extractLsb' 64 4 = 0b110#3 ++ unit.extractLsb' 0 1 ∧
    f.extractLsb' 0 4 = 0b0#1 ++ identity.extractLsb' 25 1 ++ 0b10#2

/-- DEC inverts ENC, and reads the data bit of symbol `k` at `f[2k]` (rule R105). -/
def Obligations.DecInvertsEnc : Prop :=
  (∀ (f : Frame) (k : Nat), 1 ≤ k → k ≤ 32 →
    (payloadOf (dec f).1 (dec f).2.1 (dec f).2.2.1 (dec f).2.2.2).getLsbD (32 - k) =
      f.getLsbD (2 * k)) ∧
  ∀ (identity : BitVec 26) (group state : BitVec 1) (unit : BitVec 4),
    dec (enc identity group state unit) = (identity, group, state, unit)

/-- Distinct operands give distinct frames and, with `LONG_UNITS ≥ 2`, distinct waveforms (rule
R106). -/
def Obligations.DistinctCommandsDistinctWaveforms : Prop :=
  ∀ (p : Params) (i i' : BitVec 26) (g g' s s' : BitVec 1) (u u' : BitVec 4),
    2 ≤ p.longUnits → (i, g, s, u) ≠ (i', g', s', u') →
      enc i g s u ≠ enc i' g' s' u' ∧
      frameWave p (enc i g s u) ≠ frameWave p (enc i' g' s' u')

/-- The text of a frame that ENC produced (rule R76). -/
def Obligations.FrameTextForm : Prop :=
  ∀ (identity : BitVec 26) (group state : BitVec 1) (unit : BitVec 4),
    textOf (enc identity group state unit) =
      ['B'] ++ binary 26 identity.toNat ++ binary 1 group.toNat ++ binary 1 state.toNat ++
        binary 4 unit.toNat ++ ['E'] ∧
    (textOf (enc identity group state unit)).length = 34

/-- A frame given as text: a foreign character is refused, a wrong length is refused, 34 characters
without `B` first, `E` last and data between are refused, and the text of an encoded frame gives the frame
back (rules R81 and R103; 93_implementation_defined.md, section 3). -/
def Obligations.TextFramesCheckedOrRefused : Prop :=
  (∀ text : List Char, (∃ ch ∈ text, ch ∉ ['B', 'E', '0', '1']) →
    frameOfText text = .error .badCharacter) ∧
  (∀ text : List Char, (∀ ch ∈ text, ch ∈ ['B', 'E', '0', '1']) → text.length ≠ 34 →
    frameOfText text = .error .badLength) ∧
  (∀ text : List Char, (∀ ch ∈ text, ch ∈ ['B', 'E', '0', '1']) → text.length = 34 →
    (text.head? ≠ some 'B' ∨ text.getLast? ≠ some 'E' ∨
      ∃ ch ∈ text.tail.dropLast, ch ∉ ['0', '1']) →
    frameOfText text = .error .badMarkers) ∧
  (∀ P : Payload, frameOfText (textOf (frameOf P)) = .ok (frameOf P))

/-- ENCODE completes on operands the ports can hold: `enc_frame` is ENC of them, and nothing but the
operand ports differs. -/
def Obligations.EncodeCompletes : Prop :=
  ∀ (identity group state unit : Nat) (s : State),
    identity < 2 ^ 26 → group < 2 → state < 2 → unit < 16 →
      ∃ t, exec (.encode identity group state unit) s = .next t ∧
        t = { s with ports :=
          { s.ports with identity := identity, group := group, state := state, unit := unit } } ∧
        t.encFrame = some (enc (BitVec.ofNat 26 identity) (BitVec.ofNat 1 group)
          (BitVec.ofNat 1 state) (BitVec.ofNat 4 unit))

/-- `enc_frame` is ENC of the operand ports and depends on no register (rule R22). -/
def Obligations.EncFrameIgnoresRegisters : Prop :=
  ∀ (s : State) (r : Regs), s.ports.operandsOk = true →
    s.encFrame = some (enc (BitVec.ofNat 26 s.ports.identity) (BitVec.ofNat 1 s.ports.group)
      (BitVec.ofNat 1 s.ports.state) (BitVec.ofNat 4 s.ports.unit)) ∧
    (s.withRegs r).encFrame = s.encFrame

/-- Operands that fit no port are refused, never truncated: ENCODE and START take no step (rules R102 and
R191). The refusal of a repeat count too wide for its port is that of 93_implementation_defined.md,
section 3; that START refuses in every state, also while busy, is the model's deduction (log 13). -/
def Obligations.OutOfRangeOperandsRefused : Prop :=
  (∀ (identity group state unit : Nat) (s : State),
    (2 ^ 26 ≤ identity ∨ 2 ≤ group ∨ 2 ≤ state ∨ 16 ≤ unit) →
      exec (.encode identity group state unit) s = .refused .invalidArgument) ∧
  (∀ s : State,
    (2 ^ 26 ≤ s.ports.identity ∨ 2 ≤ s.ports.group ∨ 2 ≤ s.ports.state ∨ 16 ≤ s.ports.unit) →
      exec .start s = .refused .invalidArgument) ∧
  (∀ s : State, s.ports.operandsOk = true → 2 ^ s.params.repW ≤ s.ports.repeatCount →
      exec .start s = .refused .repeatCountTooWide)

/-! ### SER -/

/-- SYM_B at a phase end: its low phase, then the next symbol, or GO_IDLE when an ABORT waits for the
boundary (rule R121; the boundary is rule R157). -/
def Obligations.SymBPhases : Prop :=
  ∀ s : State, s.regs.st = .send → s.regs.phaseEnds s.params → s.regs.symIdx < 33#6 →
    1 ≤ s.params.startLowUnits →
    (s.regs.phase = 0#2 →
      exec .symB s =
        .next (s.withRegs (s.regs.atPhase s.regs.symIdx 1#2 false s.params.startLowUnits))) ∧
    (s.regs.phase = 1#2 →
      exec .symB s = .next (s.withRegs
        (if s.params.abortAtBoundary = true ∧ s.regs.abortPending = true
          then s.regs.ended .aborted
          else s.regs.atPhase (s.regs.symIdx + 1#6) 0#2 true 1)))

/-- SYM_E at its phase end: the zero-unit entry takes no cycle and the gap follows at once (rule R122;
an ABORT that waits for the boundary is rule R157). -/
def Obligations.SymEPhases : Prop :=
  ∀ s : State, s.regs.st = .send → s.regs.phaseEnds s.params → s.regs.symIdx = 33#6 →
    s.regs.phase = 0#2 →
      exec .symE s = .next (s.withRegs
        (if s.params.abortAtBoundary = true ∧ s.regs.abortPending = true
          then s.regs.ended .aborted
          else s.regs.atGap s.params.gapUnits))

/-- SYM_0 at a phase end: high 1, low 1, high 1, low `LONG_UNITS`, then the next symbol (rule R123; an
ABORT that waits for the boundary is rule R157). -/
def Obligations.Sym0Phases : Prop :=
  ∀ s : State, s.regs.st = .send → s.regs.phaseEnds s.params → s.regs.symIdx < 33#6 →
    1 ≤ s.params.longUnits →
    (s.regs.phase = 0#2 →
      exec .sym0 s = .next (s.withRegs (s.regs.atPhase s.regs.symIdx 1#2 false 1))) ∧
    (s.regs.phase = 1#2 →
      exec .sym0 s = .next (s.withRegs (s.regs.atPhase s.regs.symIdx 2#2 true 1))) ∧
    (s.regs.phase = 2#2 →
      exec .sym0 s =
        .next (s.withRegs (s.regs.atPhase s.regs.symIdx 3#2 false s.params.longUnits))) ∧
    (s.regs.phase = 3#2 →
      exec .sym0 s = .next (s.withRegs
        (if s.params.abortAtBoundary = true ∧ s.regs.abortPending = true
          then s.regs.ended .aborted
          else s.regs.atPhase (s.regs.symIdx + 1#6) 0#2 true 1)))

/-- SYM_1 at a phase end: high 1, low `LONG_UNITS`, high 1, low 1, then the next symbol (rule R124; an
ABORT that waits for the boundary is rule R157). -/
def Obligations.Sym1Phases : Prop :=
  ∀ s : State, s.regs.st = .send → s.regs.phaseEnds s.params → s.regs.symIdx < 33#6 →
    1 ≤ s.params.longUnits →
    (s.regs.phase = 0#2 →
      exec .sym1 s =
        .next (s.withRegs (s.regs.atPhase s.regs.symIdx 1#2 false s.params.longUnits))) ∧
    (s.regs.phase = 1#2 →
      exec .sym1 s = .next (s.withRegs (s.regs.atPhase s.regs.symIdx 2#2 true 1))) ∧
    (s.regs.phase = 2#2 →
      exec .sym1 s = .next (s.withRegs (s.regs.atPhase s.regs.symIdx 3#2 false 1))) ∧
    (s.regs.phase = 3#2 →
      exec .sym1 s = .next (s.withRegs
        (if s.params.abortAtBoundary = true ∧ s.regs.abortPending = true
          then s.regs.ended .aborted
          else s.regs.atPhase (s.regs.symIdx + 1#6) 0#2 true 1)))

/-- Inside a phase only the timer moves: every symbol in SEND, and NOP in SEND and GAP, count cycles
and then units, and `line`, `st`, `sym_idx`, `phase`, `rep_left` and `frame` keep their values (rules
R125 and R159). -/
def Obligations.PhaseTimerCounts : Prop :=
  ∀ (i : Instr) (s : State),
    ((s.regs.st = .send ∧ ∃ c : Sym, i = c.instr) ∨
      (i = .nop ∧ (s.regs.st = .send ∨
        (s.regs.st = .gap ∧ ¬(s.params.abortAtBoundary = true ∧ s.regs.abortPending = true))))) →
    (s.regs.tick < s.params.unitCycles - 1 →
      exec i s = .next (s.withRegs { s.regs with tick := s.regs.tick + 1 })) ∧
    (s.params.unitCycles - 1 ≤ s.regs.tick → 1 < s.regs.unitsLeft →
      exec i s =
        .next (s.withRegs { s.regs with tick := 0, unitsLeft := s.regs.unitsLeft - 1 }))

/-- NEXT is the next entry of the recipe, the zero-unit entry of `E` skipped; after the last, the first
phase of the next symbol; after symbol 33 the gap. It never returns a phase without time (rule R127). -/
def Obligations.NextReturnsTimedPhases : Prop :=
  ∀ (p : Params) (c : Sym) (k : SymIdx) (q : PhaseIdx),
    p.wf = true → k ≤ 33#6 → q.toNat < nph p c →
      (nextPhase p c k q =
        if q.toNat + 1 < nph p c ∧ c ≠ .E then .phase k (q + 1#2)
        else if k < 33#6 then .phase (k + 1#6) 0#2
        else .gap) ∧
      ∀ (k' : SymIdx) (q' : PhaseIdx), nextPhase p c k q = .phase k' q' →
        (k' = k ∧ q.toNat < q'.toNat ∧ q'.toNat < nph p c ∧ 1 ≤ (lut p c q'.toNat).units) ∨
          (k' = k + 1#6 ∧ q' = 0#2 ∧ k < 33#6 ∧ ∀ c', (lut p c' 0).units = 1)

/-- A phase of `u` units is held for exactly `u * UNIT_CYCLES` cycles: through them only `tick` and
`units_left` move, and the phase ends at the last (rule R125). -/
def Obligations.PhaseHeldExactly : Prop :=
  ∀ (s : State) (u j : Nat),
    s.params.wf = true → s.busy = true →
    ¬(s.params.abortAtBoundary = true ∧ s.regs.st = .gap ∧ s.regs.abortPending = true) →
    s.regs.tick = 0 → s.regs.unitsLeft = u → 1 ≤ u →
    s.ports.undisturbed s.params →
    (∀ inp ∈ s.host.take (u * s.params.unitCycles), inp.undisturbed s.params) →
    j < u * s.params.unitCycles →
      ∃ t, steps j s = some t ∧
        t.regs = { s.regs with
          tick := j % s.params.unitCycles, unitsLeft := u - j / s.params.unitCycles } ∧
        (t.regs.phaseEnds s.params ↔ j + 1 = u * s.params.unitCycles)

/-- A symbol plays its recipe: from the first cycle of symbol `k` of a state with the invariants of rule
R36 (symbol 33 is `E`), with no RESET, no ABORT and none pending, `tx` follows the symbol's waveform to its end, and the next symbol (after symbol 33 the gap)
begins in the very next cycle (rules R121 to R124, R130 and R233). -/
def Obligations.SymbolPlaysItsRecipe : Prop :=
  ∀ s : State,
    s.Inv → s.regs.st = .send →
    s.regs = s.regs.atPhase s.regs.symIdx 0#2 true 1 → s.regs.abortPending = false →
    s.ports.undisturbed s.params →
    (∀ inp ∈ s.host.take (symbolUnits s.params s.regs.currentSym * s.params.unitCycles),
      inp.undisturbed s.params) →
      s.tx :: txTrace (symbolUnits s.params s.regs.currentSym * s.params.unitCycles - 1) s =
        samples s.params (symbolWave s.params s.regs.currentSym) ∧
      ∃ t, steps (symbolUnits s.params s.regs.currentSym * s.params.unitCycles) s = some t ∧
        t.regs = if s.regs.symIdx < 33#6 then s.regs.atPhase (s.regs.symIdx + 1#6) 0#2 true 1
          else s.regs.atGap s.params.gapUnits

/-- Boundary mode finishes the symbol in progress: from the first cycle of a symbol with no abort pending,
and with ABORT sampled at one or more of the edges that end the symbol's cycles, the first or the last among
them, `tx` still follows the whole recipe, and the transmission ends ABORTED at the symbol boundary (rule
R157). -/
def Obligations.BoundaryAbortFinishesSymbol : Prop :=
  ∀ s : State,
    s.params.wf = true → s.params.abortAtBoundary = true → s.regs.st = .send →
    s.regs = s.regs.atPhase s.regs.symIdx 0#2 true 1 → s.regs.abortPending = false →
    (∀ inp ∈ (s.ports :: s.host).take (symbolUnits s.params s.regs.currentSym * s.params.unitCycles),
      inp.undisturbed s.params ∨ (inp.clk = true ∧ inp.rst = false ∧ inp.abort = true)) →
    (∃ inp ∈ (s.ports :: s.host).take (symbolUnits s.params s.regs.currentSym * s.params.unitCycles),
      inp.abort = true) →
      s.tx :: txTrace (symbolUnits s.params s.regs.currentSym * s.params.unitCycles - 1) s =
        samples s.params (symbolWave s.params s.regs.currentSym) ∧
      ∃ t, steps (symbolUnits s.params s.regs.currentSym * s.params.unitCycles) s = some t ∧
        t.regs = s.regs.ended .aborted

/-- The frame waveform: `FRAME_UNITS` long, levels alternating, 66 high pulses of one unit each, 65 low
runs, and `START_LOW_UNITS + 32 * (1 + LONG_UNITS)` low units (rules R131 and R132). -/
def Obligations.FrameWaveShape : Prop :=
  ∀ (p : Params) (f : Frame),
    waveUnits (frameWave p f) = p.frameUnits ∧
    List.IsChain (fun a b => a.1 ≠ b.1) (frameWave p f) ∧
    highPulses (frameWave p f) = 66 ∧
    (∀ e ∈ frameWave p f, e.1 = true → e.2 = 1) ∧
    ((frameWave p f).filter fun e => !e.1).length = 65 ∧
    waveUnits ((frameWave p f).filter fun e => !e.1) = p.startLowUnits + 32 * (1 + p.longUnits)

/-! ### SEQ: the commands -/

/-- NOP does nothing in IDLE (rule R153), and in SEND it is the edge of the symbol at the program counter.
That a symbol's instruction is one edge of it, with the effect of a NOP there, is the model's choice (log
10). NOP in GAP is the subject of `PhaseTimerCounts`, `GapEnd` and `AbortAtBoundary`. -/
def Obligations.NopCompletes : Prop :=
  ∀ s : State,
    (s.regs.st.isIdle = true → exec .nop s = .next s) ∧
    (s.regs.st = .send → exec .nop s = exec s.regs.currentSym.instr s)

/-- The end of a gap: the next attempt from the same frame, or completion (rules R162 and R164). -/
def Obligations.GapEnd : Prop :=
  ∀ s : State, s.regs.st = .gap → s.regs.phaseEnds s.params →
    ¬(s.params.abortAtBoundary = true ∧ s.regs.abortPending = true) →
    (0 < s.regs.repLeft →
      exec .nop s = .next (s.withRegs
        ({ s.regs with repLeft := s.regs.repLeft - 1, st := .send }.atPhase 0#6 0#2 true 1))) ∧
    (s.regs.repLeft = 0 → exec .nop s = .next (s.withRegs (s.regs.ended .done)))

/-- An accepted START, register by register (rule R154). -/
def Obligations.StartAccepted : Prop :=
  ∀ s : State, s.regs.st.isIdle = true →
    s.ports.identity < 2 ^ 26 → s.ports.group < 2 → s.ports.state < 2 → s.ports.unit < 16 →
    s.ports.repeatCount < 2 ^ s.params.repW → s.ports.repeatCount ≠ 0 →
      exec .start s = .next { s with regs :=
        { st := .send
          frame := enc (BitVec.ofNat 26 s.ports.identity) (BitVec.ofNat 1 s.ports.group)
            (BitVec.ofNat 1 s.ports.state) (BitVec.ofNat 4 s.ports.unit)
          repLeft := s.ports.repeatCount - 1
          tick := 0
          unitsLeft := 1
          line := true
          status := .none
          symIdx := 0#6
          phase := 0#2
          abortPending := false } }

/-- START with a repeat count of 0 writes REJECTED and nothing else (rule R155). -/
def Obligations.StartRejected : Prop :=
  ∀ s : State, s.regs.st.isIdle = true → s.ports.operandsOk = true → s.ports.repeatCount = 0 →
    exec .start s = .next { s with regs := { s.regs with status := .rejected } }

/-- START while busy is ignored: the edge is that of a NOP, whatever the operands (rule R163). -/
def Obligations.StartWhileBusyIgnored : Prop :=
  ∀ s : State, s.regs.st = .send ∨ s.regs.st = .gap →
    s.ports.operandsOk = true → s.ports.repeatOk s.params = true →
      exec .start s = exec .nop s

/-- ABORT in IDLE changes nothing, and drops a START at the same edge (rule R158). -/
def Obligations.AbortWhileIdle : Prop :=
  ∀ (start : Bool) (s : State), s.regs.st.isIdle = true → exec (.abort start) s = .next s

/-- ABORT in immediate mode ends the transmission at its edge (rule R156). -/
def Obligations.AbortImmediate : Prop :=
  ∀ (start : Bool) (s : State), s.regs.st = .send ∨ s.regs.st = .gap →
    s.params.abortAtBoundary = false →
      exec (.abort start) s = .next (s.withRegs (s.regs.ended .aborted))

/-- An abort request in boundary mode, `abort_pending` or ABORT at this edge: at once in GAP; in SEND
carried while the phase goes on and over the phase ends inside the symbol, and taken at the symbol
boundary (rule R157). -/
def Obligations.AbortAtBoundary : Prop :=
  ∀ (i : Instr) (s : State), s.params.abortAtBoundary = true →
    ((∃ start : Bool, i = .abort start) ∨ (i = .nop ∧ s.regs.abortPending = true)) →
    (s.regs.st = .gap → exec i s = .next (s.withRegs (s.regs.ended .aborted))) ∧
    (s.regs.st = .send → s.regs.tick < s.params.unitCycles - 1 →
      exec i s = .next (s.withRegs
        { s.regs with tick := s.regs.tick + 1, abortPending := true })) ∧
    (s.regs.st = .send → s.params.unitCycles - 1 ≤ s.regs.tick → 1 < s.regs.unitsLeft →
      exec i s = .next (s.withRegs
        { s.regs with
          tick := 0, unitsLeft := s.regs.unitsLeft - 1, abortPending := true })) ∧
    (s.regs.st = .send → s.regs.phaseEnds s.params → ∀ q : PhaseIdx,
      nextPhase s.params s.regs.currentSym s.regs.symIdx s.regs.phase = .phase s.regs.symIdx q →
      exec i s = .next (s.withRegs
        { s.regs.atPhase s.regs.symIdx q (lut s.params s.regs.currentSym q.toNat).level
            (lut s.params s.regs.currentSym q.toNat).units with abortPending := true })) ∧
    (s.regs.st = .send → s.regs.phaseEnds s.params →
      (∀ q : PhaseIdx, nextPhase s.params s.regs.currentSym s.regs.symIdx s.regs.phase ≠
        .phase s.regs.symIdx q) →
      exec i s = .next (s.withRegs (s.regs.ended .aborted)))

/-- RESET from any state: every register takes its reset value and nothing else changes, so `tx = 0`,
`busy = 0`, `status = 00`, and `enc_frame` follows the operand ports as before (rules R152 and R38). -/
def Obligations.ResetFromAnyState : Prop :=
  ∀ (abort start : Bool) (s : State), ∃ t,
    exec (.reset abort start) s = .next t ∧
    t = { s with regs :=
      { st := .idle, frame := 0#68, repLeft := 0, tick := 0, unitsLeft := 0, line := false,
        status := .none, symIdx := 0#6, phase := 0#2, abortPending := false } } ∧
    t.tx = false ∧ t.busy = false ∧ t.statusOut = 0b00#2 ∧ t.encFrame = s.encFrame

/-- The reset values, and the outputs they give (rule R38). -/
def Obligations.ResetRegisterValues : Prop :=
  State.reset.regs =
    { st := .idle, frame := 0#68, repLeft := 0, tick := 0, unitsLeft := 0, line := false,
      status := .none, symIdx := 0#6, phase := 0#2, abortPending := false } ∧
  State.reset.tx = false ∧ State.reset.busy = false ∧ State.reset.statusOut = 0b00#2

/-! ### The machine -/

/-- A step runs the decoded instruction, and then the host drives its next inputs. -/
def Obligations.StepRunsDecodedInstruction : Prop :=
  ∀ (s : State) (w : EncWord), s.params.wf = true → fetchWord s = some w →
    step s =
      match exec (decode w) s with
      | .next t => .next t.nextInputs
      | .fault f => .fault f
      | .refused r => .refused r

/-- What the step fetches: ENCODE of the operand ports without a clock edge, the command on the control
inputs at an edge, and at an edge with no command in SEND the symbol at the program counter. The last is the
model's choice of what to call the instruction of such an edge (log 10): by `NopCompletes` a NOP is the same.
That a moment without an edge is a step, of ENCODE, is the model's choice too (log 11). -/
def Obligations.FetchedInstruction : Prop :=
  ∀ s : State,
    (s.ports.clk = false → s.ports.operandsOk = true →
      (fetchWord s).map decode =
        some (.encode s.ports.identity s.ports.group s.ports.state s.ports.unit)) ∧
    (s.ports.clk = true → s.ports.rst = true →
      (fetchWord s).map decode = some (.reset s.ports.abort s.ports.start)) ∧
    (s.ports.clk = true → s.ports.rst = false → s.ports.abort = true →
      (fetchWord s).map decode = some (.abort s.ports.start)) ∧
    (s.ports.clk = true → s.ports.rst = false → s.ports.abort = false → s.ports.start = true →
      (fetchWord s).map decode = some .start) ∧
    (s.ports.clk = true → s.ports.rst = false → s.ports.abort = false → s.ports.start = false →
      (fetchWord s).map decode =
        some (if s.regs.st = .send then s.regs.currentSym.instr else .nop))

/-- Every step at a clock edge is the STEP of rule R151. -/
def Obligations.StepImplementsR151 : Prop :=
  ∀ s : State, s.params.wf = true → s.ports.clk = true →
    (s.ports.start = true → s.ports.operandsOk = true ∧ s.ports.repeatOk s.params = true) →
      step s = .next (s.withRegs (stepR151 s.params s.regs s.ports)).nextInputs

/-- Every input the ports can hold, at every state, has a next state. -/
def Obligations.EveryStepCompletes : Prop :=
  ∀ s : State, s.params.wf = true → s.ports.operandsOk = true →
    s.ports.repeatOk s.params = true → ∃ t, step s = .next t

/-- Without a rising edge no register changes, whatever the inputs (rule R20). -/
def Obligations.NoEdgeNoRegisterChange : Prop :=
  ∀ s t : State, s.ports.clk = false → step s = .next t → t.regs = s.regs

/-- At every rising edge with `rst = 1` the next state is the reset state, whatever the state and the
other inputs; between edges `rst` has no effect (rule R220). -/
def Obligations.SynchronousReset : Prop :=
  ∀ s : State, s.params.wf = true →
    (s.ports.clk = true → s.ports.rst = true →
      ∃ t, step s = .next t ∧ t.regs = Regs.reset) ∧
    (s.ports.clk = false → s.ports.rst = true → s.ports.operandsOk = true →
      ∃ t, step s = .next t ∧ t.regs = s.regs)

/-- RESET held for `n + 1` edges keeps the reset state whatever `start` and `abort` say; the first edge
with `rst = 0` is decoded as at any time, and a START at it is accepted (rule R222). -/
def Obligations.ResetHeld : Prop :=
  ∀ (n : Nat) (s : State), s.params.wf = true → n ≤ s.host.length →
    s.ports.clk = true → s.ports.rst = true →
    (∀ inp ∈ s.host.take n, inp.clk = true ∧ inp.rst = true) →
      ∃ t, steps (n + 1) s = some t ∧ t.regs = Regs.reset ∧
        ∀ inp : Inputs, s.host[n]? = some inp → inp.clk = true → inp.rst = false →
          (inp.start = true → inp.operandsOk = true ∧ inp.repeatOk s.params = true) →
            ∃ t', step t = .next t' ∧ t'.regs = stepR151 s.params Regs.reset inp ∧
              (inp.abort = false → inp.start = true → inp.repeatCount ≠ 0 →
                t'.busy = true ∧ t'.tx = true ∧ t'.regs.frame = frameOf inp.payload)

/-- Every step keeps the invariants of rule R36 (with the ranges of rules R25, R26 and R35, and the frame
markers in GAP that the next attempt relies on). -/
def Obligations.StepKeepsInvariant : Prop :=
  ∀ s t : State, s.Inv → step s = .next t → t.Inv

/-- The reset state of every well-formed instance satisfies the invariants of rule R36. -/
def Obligations.ResetSatisfiesInvariant : Prop :=
  (∀ p : Params, p.wf = true → (State.resetWith p).Inv) ∧ State.reset.Inv

/-- No counter outgrows its width: every step keeps `rep_left`, `tick` and `units_left` within
`REP_W`, `TW` and `UW` bits, from any register values of those widths (rule R170). -/
def Obligations.StepKeepsCounterWidths : Prop :=
  ∀ s t : State, s.params.wf = true → s.regs.fits s.params → step s = .next t →
    t.regs.fits t.params

/-- The transmission theorem (rule R171). -/
def Obligations.TransmissionWaveform : Prop :=
  ∀ s : State, s.accepts →
    (∀ inp ∈ s.host.take (s.ports.repeatCount * s.params.attemptCycles),
      inp.undisturbed s.params) →
      txTrace (s.ports.repeatCount * s.params.attemptCycles) s =
        (List.replicate s.ports.repeatCount
          (samples s.params (attemptWave s.params
            (enc (BitVec.ofNat 26 s.ports.identity) (BitVec.ofNat 1 s.ports.group)
              (BitVec.ofNat 1 s.ports.state) (BitVec.ofNat 4 s.ports.unit))))).flatten ∧
      ∃ t, steps (s.ports.repeatCount * s.params.attemptCycles + 1) s = some t ∧
        t.regs.st = .idle ∧ t.regs.status = .done ∧ t.tx = false

/-- `busy` is 1 for exactly the `R * ATTEMPT_CYCLES` cycles of a transmission and falls in the next,
where DONE is visible (rule R166). -/
def Obligations.BusyWindow : Prop :=
  ∀ s : State, s.accepts →
    (∀ inp ∈ s.host.take (s.ports.repeatCount * s.params.attemptCycles),
      inp.undisturbed s.params) →
      busyTrace (s.ports.repeatCount * s.params.attemptCycles + 1) s =
        List.replicate (s.ports.repeatCount * s.params.attemptCycles) true ++ [false] ∧
      ∃ t, steps (s.ports.repeatCount * s.params.attemptCycles + 1) s = some t ∧
        t.statusOut = 0b01#2

/-- An immediate ABORT cuts the waveform: sampled at the edge that ends cycle `m` of a transmission, it
leaves the first `m` cycles of the transmission's waveform and `tx = 0` from the next cycle on, in as many
cycles as no START is sampled in (rule R174). -/
def Obligations.AbortedWaveform : Prop :=
  ∀ (s : State) (m j : Nat) (inp : Inputs), s.accepts → s.params.abortAtBoundary = false →
    1 ≤ m → m ≤ s.ports.repeatCount * s.params.attemptCycles →
    (∀ early ∈ s.host.take (m - 1), early.undisturbed s.params) →
    s.host[m - 1]? = some inp → inp.clk = true → inp.rst = false → inp.abort = true →
    (∀ late ∈ (s.host.drop m).take j, late.clk = true ∧ late.start = false) →
      txTrace (m + 1 + j) s =
        ((List.replicate s.ports.repeatCount
          (samples s.params (attemptWave s.params
            (enc (BitVec.ofNat 26 s.ports.identity) (BitVec.ofNat 1 s.ports.group)
              (BitVec.ofNat 1 s.ports.state) (BitVec.ofNat 4 s.ports.unit))))).flatten.take m) ++
          List.replicate (j + 1) false ∧
      ∃ t, steps (m + 1) s = some t ∧ t.busy = false ∧ t.regs.status = .aborted

/-- Symbol start times: in attempt `m` of a transmission, symbol `k` begins `start_k` units after the
attempt's first cycle (rule R234). -/
def Obligations.SymbolStartTimes : Prop :=
  ∀ (s : State) (m k : Nat), s.accepts → m < s.ports.repeatCount → k ≤ 33 →
    (∀ inp ∈ s.host.take (s.ports.repeatCount * s.params.attemptCycles),
      inp.undisturbed s.params) →
      ∃ t, steps (1 + m * s.params.attemptUnits * s.params.unitCycles +
          (if k = 0 then 0 else (1 + s.params.startLowUnits) + (k - 1) * (3 + s.params.longUnits)) *
            s.params.unitCycles) s = some t ∧
        t.regs.st = .send ∧ t.regs.symIdx.toNat = k ∧ t.regs.phase = 0#2 ∧ t.tx = true ∧
        t.regs.tick = 0 ∧ t.regs.unitsLeft = 1

/-- The frame is written only by an accepted START and by RESET (rule R27). -/
def Obligations.FrameWrittenOnlyByStartOrReset : Prop :=
  ∀ s t : State, step s = .next t →
    t.regs.frame = s.regs.frame ∨
    (s.ports.clk = true ∧ s.ports.rst = true ∧ t.regs.frame = 0#68) ∨
    (s.accepts ∧ t.regs.frame = enc (BitVec.ofNat 26 s.ports.identity)
      (BitVec.ofNat 1 s.ports.group) (BitVec.ofNat 1 s.ports.state)
      (BitVec.ofNat 4 s.ports.unit))

/-- `status` changes only at the events of rule R196, each with its code. -/
def Obligations.StatusChangesOnlyAtEvents : Prop :=
  ∀ s t : State, step s = .next t →
    t.regs.status = s.regs.status ∨
    (s.ports.clk = true ∧ s.ports.rst = true ∧ t.regs.status = .none) ∨
    (s.accepts ∧ t.regs.status = .none) ∨
    (s.ports.clk = true ∧ s.ports.rst = false ∧ s.ports.abort = false ∧ s.ports.start = true ∧
      s.regs.st.isIdle = true ∧ s.ports.repeatCount = 0 ∧ t.regs.status = .rejected) ∨
    (s.ports.clk = true ∧ s.ports.rst = false ∧ s.busy = true ∧
      (s.ports.abort = true ∨ s.regs.abortPending = true) ∧ t.busy = false ∧
      t.regs.status = .aborted) ∨
    (s.ports.clk = true ∧ s.ports.rst = false ∧ s.regs.st = .gap ∧ s.regs.repLeft = 0 ∧
      s.regs.phaseEnds s.params ∧ t.busy = false ∧ t.regs.status = .done)

/-- The single way out of a transmission other than RESET at an edge is GO_IDLE with DONE or ABORTED, and
either way the line is low and every counter is zero in the first IDLE cycle (rules R168 and R169). -/
def Obligations.LeavingTransmissionForcesIdle : Prop :=
  ∀ s t : State, s.busy = true → step s = .next t → t.busy = false →
    t.tx = false ∧
    ((s.ports.clk = true ∧ s.ports.rst = true ∧ t.regs = Regs.reset) ∨
      (s.ports.clk = true ∧ s.ports.rst = false ∧
        (t.regs = s.regs.ended .done ∨ t.regs = s.regs.ended .aborted)))

/-- In every IDLE state that a run reaches from a state with the invariants of rule R36, the reset state
among them, `tx = 0` (rule R169). -/
def Obligations.LineLowAtRest : Prop :=
  ∀ (n : Nat) (s t : State), s.Inv → steps n s = some t → t.busy = false → t.tx = false

/-- The operand ports and `repeat_count` have no effect on any register unless a START is accepted
(rule R23). -/
def Obligations.OperandsReadOnlyAtAcceptedStart : Prop :=
  ∀ (s t t' : State) (identity group state unit repeatCount : Nat),
    let s' : State := { s with ports :=
      { s.ports with
        identity := identity, group := group, state := state, unit := unit,
        repeatCount := repeatCount } }
    ¬s.accepts → ¬s'.accepts → step s = .next t → step s' = .next t' → t'.regs = t.regs

/-- ABORT at the edge that would complete the transmission wins, in both modes (rule R198). -/
def Obligations.AbortBeatsCompletion : Prop :=
  ∀ s : State, s.params.wf = true → s.ports.clk = true → s.ports.rst = false →
    s.ports.abort = true → s.regs.st = .gap → s.regs.repLeft = 0 → s.regs.phaseEnds s.params →
      ∃ t, step s = .next t ∧ t.regs = s.regs.ended .aborted

/-- A START in the first IDLE cycle after a completion is accepted: one IDLE cycle with DONE, then a new
transmission with the operands present then (rule R173). -/
def Obligations.StartHeldRestarts : Prop :=
  ∀ (s : State) (inp : Inputs) (rest : List Inputs), s.params.wf = true →
    s.regs.st = .gap → s.regs.repLeft = 0 → s.regs.phaseEnds s.params →
    ¬(s.params.abortAtBoundary = true ∧ s.regs.abortPending = true) →
    s.ports.undisturbed s.params → s.host = inp :: rest →
    inp.undisturbed s.params → inp.start = true → inp.repeatCount ≠ 0 →
      ∃ t t', step s = .next t ∧ t.busy = false ∧ t.regs.status = .done ∧
        step t = .next t' ∧ t'.busy = true ∧ t'.tx = true ∧ t'.regs.status = .none ∧
        t'.regs.frame = frameOf inp.payload

/-- After each step the ports hold the host's next record, and with none a NOP with the operand ports left as
they were. Both are the model's choice of how the host's inputs are held (log 3). -/
def Obligations.HostInputsFollow : Prop :=
  ∀ s t : State, step s = .next t →
    (s.host = [] → t.host = [] ∧
      t.ports = { s.ports with clk := true, rst := false, start := false, abort := false }) ∧
    (∀ (inp : Inputs) (rest : List Inputs), s.host = inp :: rest → t.ports = inp ∧ t.host = rest)

/-- No step changes the instance's parameters (rule R40). -/
def Obligations.InstanceNeverChanges : Prop :=
  ∀ s t : State, step s = .next t → t.params = s.params

/-- A step of an instance outside the constraints of rule R7 is refused. -/
def Obligations.IllFormedInstanceRefused : Prop :=
  ∀ s : State,
    (s.params.unitCycles = 0 ∨ s.params.longUnits < 2 ∨ s.params.startLowUnits = 0 ∨
      s.params.gapUnits = 0 ∨ s.params.repW = 0) → step s = .refused .illFormedInstance

/-- The derived constants, for every instance and with the defaults (rule R8). -/
def Obligations.DerivedLengths : Prop :=
  (∀ p : Params,
    p.dataUnits = 3 + p.longUnits ∧
    p.frameUnits = 2 + p.startLowUnits + 32 * p.dataUnits ∧
    p.attemptUnits = p.frameUnits + p.gapUnits ∧
    p.attemptCycles = p.attemptUnits * p.unitCycles) ∧
  ∀ u : Nat,
    (Params.defaults u).dataUnits = 6 ∧ (Params.defaults u).frameUnits = 203 ∧
    (Params.defaults u).attemptUnits = 263

/-- `clog2(x)` is the least width whose power of two reaches `x` (rule R10). -/
def Obligations.Clog2IsLeast : Prop :=
  ∀ x : Nat, x ≤ 2 ^ clog2 x ∧ ∀ w : Nat, x ≤ 2 ^ w → clog2 x ≤ w

/-- A host program drives at edge `n + j` the command of its line for that edge, operands and all, and NOP
if it has none (rule R84); of two lines for one edge the first counts, which is the model's choice (log 16).
`withProgram` puts the records of edges 0 to `count` at the ports and in the host list. -/
def Obligations.ProgramDrivesItsLines : Prop :=
  (∀ (lines : List ProgramLine) (prev : Inputs) (count n j : Nat), j < count →
    ∃ inp, (expandFrom lines prev count n)[j]? = some inp ∧ inp.clk = true ∧
      ((∀ l ∈ lines, l.edge ≠ n + j) →
        inp.rst = false ∧ inp.abort = false ∧ inp.start = false) ∧
      ∀ (before after : List ProgramLine) (command : Command),
        lines = before ++ ⟨n + j, command⟩ :: after → (∀ l ∈ before, l.edge ≠ n + j) →
          match command with
          | .reset => inp.rst = true ∧ inp.abort = false ∧ inp.start = false
          | .abort => inp.rst = false ∧ inp.abort = true ∧ inp.start = false
          | .nop => inp.rst = false ∧ inp.abort = false ∧ inp.start = false
          | .start identity group state unit repeatCount =>
            inp = { clk := true, rst := false, start := true, abort := false, identity := identity,
                    group := group, state := state, unit := unit, repeatCount := repeatCount }) ∧
  ∀ (lines : List ProgramLine) (s : State) (count : Nat),
    (s.withProgram lines count).ports :: (s.withProgram lines count).host =
      expandFrom lines s.ports (count + 1) 0
end

