-- ==== Sys2Proof/Laws/State.lean ====
section
/-! SUPPORT. One lemma per field per update: no later proof unfolds a record update. -/

namespace Sys2Proof.Machine

@[simp] theorem State.withRegs_params (s : State) (r : Regs) : (s.withRegs r).params = s.params := rfl
@[simp] theorem State.withRegs_regs (s : State) (r : Regs) : (s.withRegs r).regs = r := rfl
@[simp] theorem State.withRegs_ports (s : State) (r : Regs) : (s.withRegs r).ports = s.ports := rfl
@[simp] theorem State.withRegs_host (s : State) (r : Regs) : (s.withRegs r).host = s.host := rfl
@[simp] theorem State.withRegs_self (s : State) : s.withRegs s.regs = s := rfl

@[simp] theorem State.withPorts_params (s : State) (i : Inputs) : (s.withPorts i).params = s.params := rfl
@[simp] theorem State.withPorts_regs (s : State) (i : Inputs) : (s.withPorts i).regs = s.regs := rfl
@[simp] theorem State.withPorts_ports (s : State) (i : Inputs) : (s.withPorts i).ports = i := rfl
@[simp] theorem State.withPorts_host (s : State) (i : Inputs) : (s.withPorts i).host = s.host := rfl
@[simp] theorem State.withPorts_self (s : State) : s.withPorts s.ports = s := rfl

@[simp] theorem Inputs.withOperands_clk (i : Inputs) (a b c d : Nat) : (i.withOperands a b c d).clk = i.clk := rfl
@[simp] theorem Inputs.withOperands_identity (i : Inputs) (a b c d : Nat) : (i.withOperands a b c d).identity = a := rfl
@[simp] theorem Inputs.withOperands_group (i : Inputs) (a b c d : Nat) : (i.withOperands a b c d).group = b := rfl
@[simp] theorem Inputs.withOperands_state (i : Inputs) (a b c d : Nat) : (i.withOperands a b c d).state = c := rfl
@[simp] theorem Inputs.withOperands_unit (i : Inputs) (a b c d : Nat) : (i.withOperands a b c d).unit = d := rfl
@[simp] theorem Inputs.withOperands_self (i : Inputs) :
    i.withOperands i.identity i.group i.state i.unit = i := rfl

@[simp] theorem State.nextInputs_params (s : State) : s.nextInputs.params = s.params := by
  unfold State.nextInputs; split <;> rfl
@[simp] theorem State.nextInputs_regs (s : State) : s.nextInputs.regs = s.regs := by
  unfold State.nextInputs; split <;> rfl
@[simp] theorem State.nextInputs_host (s : State) : s.nextInputs.host = s.host.tail := by
  unfold State.nextInputs; split <;> simp_all
theorem State.nextInputs_nil (s : State) (h : s.host = []) :
    s.nextInputs = s.withPorts s.ports.quiet := by
  cases s; subst h; rfl
theorem State.nextInputs_cons (s : State) (inp : Inputs) (rest : List Inputs) (h : s.host = inp :: rest) :
    s.nextInputs.ports = inp ∧ s.nextInputs.host = rest := by
  unfold State.nextInputs; rw [h]; exact ⟨rfl, rfl⟩

@[simp] theorem Inputs.quiet_clk (i : Inputs) : i.quiet.clk = true := rfl
@[simp] theorem Inputs.quiet_rst (i : Inputs) : i.quiet.rst = false := rfl
@[simp] theorem Inputs.quiet_start (i : Inputs) : i.quiet.start = false := rfl
@[simp] theorem Inputs.quiet_abort (i : Inputs) : i.quiet.abort = false := rfl

theorem Inputs.quiet_undisturbed (p : Params) (i : Inputs) : i.quiet.undisturbed p := by
  simp [Inputs.undisturbed]

@[simp] theorem State.tx_eq (s : State) : s.tx = s.regs.line := rfl
@[simp] theorem State.busy_eq (s : State) : s.busy = !s.regs.st.isIdle := rfl

theorem SeqState.isIdle_iff (x : SeqState) : x.isIdle = true ↔ x = .idle ∨ x = .unused := by
  cases x <;> simp [SeqState.isIdle]
theorem SeqState.not_isIdle_iff (x : SeqState) : x.isIdle = false ↔ x = .send ∨ x = .gap := by
  cases x <;> simp [SeqState.isIdle]

@[simp] theorem Regs.atPhase_st (r : Regs) (k q l u) : (r.atPhase k q l u).st = r.st := rfl
@[simp] theorem Regs.atPhase_frame (r : Regs) (k q l u) : (r.atPhase k q l u).frame = r.frame := rfl
@[simp] theorem Regs.atPhase_repLeft (r : Regs) (k q l u) : (r.atPhase k q l u).repLeft = r.repLeft := rfl
@[simp] theorem Regs.atPhase_tick (r : Regs) (k q l u) : (r.atPhase k q l u).tick = 0 := rfl
@[simp] theorem Regs.atPhase_unitsLeft (r : Regs) (k q l u) : (r.atPhase k q l u).unitsLeft = u := rfl
@[simp] theorem Regs.atPhase_line (r : Regs) (k q l u) : (r.atPhase k q l u).line = l := rfl
@[simp] theorem Regs.atPhase_status (r : Regs) (k q l u) : (r.atPhase k q l u).status = r.status := rfl
@[simp] theorem Regs.atPhase_symIdx (r : Regs) (k q l u) : (r.atPhase k q l u).symIdx = k := rfl
@[simp] theorem Regs.atPhase_phase (r : Regs) (k q l u) : (r.atPhase k q l u).phase = q := rfl
@[simp] theorem Regs.atPhase_abortPending (r : Regs) (k q l u) :
    (r.atPhase k q l u).abortPending = r.abortPending := rfl
@[simp] theorem Regs.atPhase_atPhase (r : Regs) (k q l u k' q' l' u') :
    (r.atPhase k q l u).atPhase k' q' l' u' = r.atPhase k' q' l' u' := rfl

@[simp] theorem Regs.atGap_st (r : Regs) (u) : (r.atGap u).st = .gap := rfl
@[simp] theorem Regs.atGap_frame (r : Regs) (u) : (r.atGap u).frame = r.frame := rfl
@[simp] theorem Regs.atGap_repLeft (r : Regs) (u) : (r.atGap u).repLeft = r.repLeft := rfl
@[simp] theorem Regs.atGap_tick (r : Regs) (u) : (r.atGap u).tick = 0 := rfl
@[simp] theorem Regs.atGap_unitsLeft (r : Regs) (u) : (r.atGap u).unitsLeft = u := rfl
@[simp] theorem Regs.atGap_line (r : Regs) (u) : (r.atGap u).line = false := rfl
@[simp] theorem Regs.atGap_status (r : Regs) (u) : (r.atGap u).status = r.status := rfl
@[simp] theorem Regs.atGap_symIdx (r : Regs) (u) : (r.atGap u).symIdx = r.symIdx := rfl
@[simp] theorem Regs.atGap_phase (r : Regs) (u) : (r.atGap u).phase = r.phase := rfl
@[simp] theorem Regs.atGap_abortPending (r : Regs) (u) : (r.atGap u).abortPending = r.abortPending := rfl

@[simp] theorem Regs.ended_st (r : Regs) (c) : (r.ended c).st = .idle := rfl
@[simp] theorem Regs.ended_frame (r : Regs) (c) : (r.ended c).frame = r.frame := rfl
@[simp] theorem Regs.ended_line (r : Regs) (c) : (r.ended c).line = false := rfl
@[simp] theorem Regs.ended_status (r : Regs) (c) : (r.ended c).status = c := rfl
@[simp] theorem Regs.ended_repLeft (r : Regs) (c) : (r.ended c).repLeft = 0 := rfl
@[simp] theorem Regs.ended_tick (r : Regs) (c) : (r.ended c).tick = 0 := rfl
@[simp] theorem Regs.ended_unitsLeft (r : Regs) (c) : (r.ended c).unitsLeft = 0 := rfl
@[simp] theorem Regs.ended_symIdx (r : Regs) (c) : (r.ended c).symIdx = 0#6 := rfl
@[simp] theorem Regs.ended_phase (r : Regs) (c) : (r.ended c).phase = 0#2 := rfl
@[simp] theorem Regs.ended_abortPending (r : Regs) (c) : (r.ended c).abortPending = false := rfl

end Sys2Proof.Machine
end

