-- ==== Sys2Proof/Laws/Ops.lean ====
section
/-! SUPPORT. What each shared operation can do, said once. -/

namespace Sys2Proof.Machine

/-! ### The operations in the words of Safety.lean -/

theorem load_eq_atPhase (p : Params) (r : Regs) (c : Sym) (k : SymIdx) (q : PhaseIdx) :
    load p r c k q = r.atPhase k q (lut p c q.toNat).level (lut p c q.toNat).units := rfl

theorem goIdle_eq_ended (r : Regs) (code : Status) : goIdle r code = r.ended code := rfl

theorem enterGap_eq_atGap (p : Params) (r : Regs) : enterGap p r = r.atGap p.gapUnits := rfl

/-! ### The timing LUT -/

/-- "Every entry with `p = 0` has `level = 1` and `units = 1`" (rule R79). -/
@[simp] theorem lut_first (p : Params) (c : Sym) : lut p c 0 = ⟨true, 1⟩ := by
  cases c <;> rfl

@[simp] theorem lut_B_1 (p : Params) : lut p .B 1 = ⟨false, p.startLowUnits⟩ := rfl
@[simp] theorem lut_E_1 (p : Params) : lut p .E 1 = ⟨false, 0⟩ := rfl
@[simp] theorem lut_zero_1 (p : Params) : lut p .zero 1 = ⟨false, 1⟩ := rfl
@[simp] theorem lut_zero_2 (p : Params) : lut p .zero 2 = ⟨true, 1⟩ := rfl
@[simp] theorem lut_zero_3 (p : Params) : lut p .zero 3 = ⟨false, p.longUnits⟩ := rfl
@[simp] theorem lut_one_1 (p : Params) : lut p .one 1 = ⟨false, p.longUnits⟩ := rfl
@[simp] theorem lut_one_2 (p : Params) : lut p .one 2 = ⟨true, 1⟩ := rfl
@[simp] theorem lut_one_3 (p : Params) : lut p .one 3 = ⟨false, 1⟩ := rfl

/-- The units of a LUTE word are a number of `UW` bits (rule R79). -/
theorem LutEntry.ofWord_units_lt (uw : Nat) (w : LuteWord uw) :
    (LutEntry.ofWord uw w).units < 2 ^ uw :=
  (w.extractLsb' 0 uw).isLt

/-- An entry whose units fit `UW` bits is held whole by its LUTE word (rule R79). -/
theorem LutEntry.ofWord_word (uw : Nat) (e : LutEntry) (h : e.units < 2 ^ uw) :
    LutEntry.ofWord uw (e.word uw) = e := by
  obtain ⟨level, units⟩ := e
  have hu : (BitVec.ofNat uw units).toNat = units := Nat.mod_eq_of_lt h
  have hl : (BitVec.ofBool level ++ BitVec.ofNat uw units).extractLsb' 0 uw =
      BitVec.ofNat uw units := by
    ext i hi
    simp [BitVec.getLsbD_append, hi]
  have hb : (BitVec.ofBool level ++ BitVec.ofNat uw units).getLsbD uw = level := by
    rw [BitVec.getLsbD_append]
    simp
  rw [LutEntry.ofWord, LutEntry.word, hl, hu, hb]

/-- The search of `clog2` reaches `x` if its fuel does. -/
theorem clog2From_reaches (x fuel w : Nat) (h : x ≤ 2 ^ (w + fuel)) :
    x ≤ 2 ^ clog2From x fuel w := by
  induction fuel generalizing w with
  | zero => exact h
  | succ n ih =>
    by_cases hx : x ≤ 2 ^ w
    · simp only [clog2From, hx, if_true]
    · simp only [clog2From, hx, if_false]
      exact ih (w + 1) (by rwa [show w + 1 + n = w + (n + 1) by omega])

/-- `UW` bits hold the largest value a phase load or GAP entry gives `units_left` (rule R25). -/
theorem maxUnits_lt (p : Params) : p.maxUnits < 2 ^ p.uw :=
  clog2From_reaches _ _ 0 (by rw [Nat.zero_add]; exact Nat.lt_two_pow_self.le)

/-- The first phase of any symbol, loaded: one unit of high. -/
theorem load_first (p : Params) (r : Regs) (c : Sym) (k : SymIdx) :
    load p r c k 0#2 = r.atPhase k 0#2 true 1 := by
  simp [load_eq_atPhase]

/-! ### NEXT, symbol by symbol -/

/-- The phase after the last: the next symbol, or the gap after symbol 33. -/
def afterSymbol (k : SymIdx) : Successor :=
  if k < 33#6 then .phase (k + 1#6) 0#2 else .gap

theorem nextPhase_B_0 (p : Params) (h : 1 ≤ p.startLowUnits) (k : SymIdx) :
    nextPhase p .B k 0#2 = .phase k 1#2 := by
  have : p.startLowUnits ≠ 0 := by omega
  simp [nextPhase, recipe, firstTimed, this]
theorem nextPhase_B_1 (p : Params) (k : SymIdx) : nextPhase p .B k 1#2 = afterSymbol k := rfl
theorem nextPhase_E_0 (p : Params) (k : SymIdx) : nextPhase p .E k 0#2 = afterSymbol k := rfl
theorem nextPhase_zero_0 (p : Params) (k : SymIdx) : nextPhase p .zero k 0#2 = .phase k 1#2 := rfl
theorem nextPhase_zero_1 (p : Params) (k : SymIdx) : nextPhase p .zero k 1#2 = .phase k 2#2 := rfl
theorem nextPhase_zero_2 (p : Params) (h : 1 ≤ p.longUnits) (k : SymIdx) :
    nextPhase p .zero k 2#2 = .phase k 3#2 := by
  have : p.longUnits ≠ 0 := by omega
  simp [nextPhase, recipe, firstTimed, this]
theorem nextPhase_zero_3 (p : Params) (k : SymIdx) : nextPhase p .zero k 3#2 = afterSymbol k := rfl
theorem nextPhase_one_0 (p : Params) (h : 1 ≤ p.longUnits) (k : SymIdx) :
    nextPhase p .one k 0#2 = .phase k 1#2 := by
  have : p.longUnits ≠ 0 := by omega
  simp [nextPhase, recipe, firstTimed, this]
theorem nextPhase_one_1 (p : Params) (k : SymIdx) : nextPhase p .one k 1#2 = .phase k 2#2 := rfl
theorem nextPhase_one_2 (p : Params) (k : SymIdx) : nextPhase p .one k 2#2 = .phase k 3#2 := rfl
theorem nextPhase_one_3 (p : Params) (k : SymIdx) : nextPhase p .one k 3#2 = afterSymbol k := rfl

/-! ### TIMER_STEP -/

theorem timerStep_tick (p : Params) (r : Regs) (h : r.tick < p.unitCycles - 1) :
    timerStep p r = .running { r with tick := r.tick + 1 } := by simp [timerStep, h]

theorem timerStep_unit (p : Params) (r : Regs) (h : p.unitCycles - 1 ≤ r.tick) (h' : 1 < r.unitsLeft) :
    timerStep p r = .running { r with tick := 0, unitsLeft := r.unitsLeft - 1 } := by
  simp [timerStep, h', Nat.not_lt.mpr h]

theorem timerStep_phaseEnd (p : Params) (r : Regs) (h : r.phaseEnds p) :
    timerStep p r = .phaseEnd := by
  simp [timerStep, Nat.not_lt.mpr h.1, Nat.not_lt.mpr h.2]

/-- Everything TIMER_STEP can answer (rule R125). -/
theorem timerStep_cases (p : Params) (r : Regs) :
    (r.tick < p.unitCycles - 1 ∧ timerStep p r = .running { r with tick := r.tick + 1 }) ∨
    (p.unitCycles - 1 ≤ r.tick ∧ 1 < r.unitsLeft ∧
      timerStep p r = .running { r with tick := 0, unitsLeft := r.unitsLeft - 1 }) ∨
    (r.phaseEnds p ∧ timerStep p r = .phaseEnd) := by
  by_cases h : r.tick < p.unitCycles - 1
  · exact .inl ⟨h, timerStep_tick p r h⟩
  · by_cases h' : 1 < r.unitsLeft
    · exact .inr (.inl ⟨by omega, h', timerStep_unit p r (by omega) h'⟩)
    · have e : r.phaseEnds p := ⟨by omega, by omega⟩
      exact .inr (.inr ⟨e, timerStep_phaseEnd p r e⟩)

/-! ### One busy edge -/

/-- The abort request of boundary mode is not waiting in a gap, so the timer runs. -/
theorem advance_timer (p : Params) (r : Regs) (c : Sym) (req : Bool)
    (h : ¬(p.abortAtBoundary = true ∧ r.st = .gap ∧ req = true)) :
    advance p r c req =
      match timerStep p r with
      | .running r' => { r' with abortPending := req }
      | .phaseEnd => if r.st = .send then sendPhaseEnd p r c req else gapPhaseEnd p r := by
  have hc : ¬(p.abortAtBoundary && decide (r.st = .gap) && req) = true := by
    simpa [and_assoc] using h
  exact if_neg hc

theorem advance_gap_abort (p : Params) (r : Regs) (c : Sym) (h : p.abortAtBoundary = true)
    (hg : r.st = .gap) : advance p r c true = r.ended .aborted := by
  simp [advance, h, hg, goIdle_eq_ended]

theorem sendPhaseEnd_same (p : Params) (r : Regs) (c : Sym) (req : Bool) (q : PhaseIdx)
    (h : nextPhase p c r.symIdx r.phase = .phase r.symIdx q) :
    sendPhaseEnd p r c req =
      { r.atPhase r.symIdx q (lut p c q.toNat).level (lut p c q.toNat).units with
        abortPending := req } := by
  simp [sendPhaseEnd, h, load_eq_atPhase]

/-- The end of a symbol that no boundary abort takes: the next symbol's first phase, or the gap. -/
theorem sendPhaseEnd_next (p : Params) (r : Regs) (c : Sym) (req : Bool)
    (h : nextPhase p c r.symIdx r.phase = afterSymbol r.symIdx)
    (hr : ¬(p.abortAtBoundary = true ∧ req = true)) :
    sendPhaseEnd p r c req =
      if r.symIdx < 33#6 then r.atPhase (r.symIdx + 1#6) 0#2 true 1 else r.atGap p.gapUnits := by
  have hr' : (p.abortAtBoundary && req) = false := by
    cases hp : p.abortAtBoundary <;> cases req <;> simp_all
  unfold sendPhaseEnd
  rw [h, afterSymbol]
  by_cases hk : r.symIdx < 33#6
  · simp [hk, hr', load_first]
  · simp [hk, hr', enterGap_eq_atGap]

/-- The end of a symbol with a boundary abort waiting. -/
theorem sendPhaseEnd_abort (p : Params) (r : Regs) (c : Sym)
    (h : nextPhase p c r.symIdx r.phase = afterSymbol r.symIdx) (hp : p.abortAtBoundary = true) :
    sendPhaseEnd p r c true = r.ended .aborted := by
  unfold sendPhaseEnd
  rw [h, afterSymbol]
  by_cases hk : r.symIdx < 33#6
  · simp [hk, hp, goIdle_eq_ended]
  · simp [hk, hp, goIdle_eq_ended]

theorem gapPhaseEnd_done (p : Params) (r : Regs) (h : r.repLeft = 0) :
    gapPhaseEnd p r = r.ended .done := by
  simp [gapPhaseEnd, h, goIdle_eq_ended]

theorem gapPhaseEnd_again (p : Params) (r : Regs) (h : 0 < r.repLeft) :
    gapPhaseEnd p r =
      { r with repLeft := r.repLeft - 1, st := .send }.atPhase 0#6 0#2 true 1 := by
  have : r.repLeft ≠ 0 := by omega
  simp [gapPhaseEnd, this, load_first]

/-- NEXT within SEND either stays in the symbol or is at its end (rule R127). -/
theorem nextPhase_cases (p : Params) (c : Sym) (k : SymIdx) (q : PhaseIdx) :
    (∃ q', nextPhase p c k q = .phase k q') ∨ nextPhase p c k q = afterSymbol k := by
  unfold nextPhase afterSymbol
  split
  · exact .inl ⟨_, rfl⟩
  · exact .inr rfl

/-- What the loop of NEXT finds is a timed entry of the list. -/
theorem firstTimed_some (l : List LutEntry) (b q : Nat) (h : firstTimed l b = some q) :
    ∃ e, l[q - b]? = some e ∧ b ≤ q ∧ 1 ≤ e.units := by
  induction l generalizing b q with
  | nil => simp [firstTimed] at h
  | cons e l ih =>
    by_cases hz : e.units = 0
    · simp only [firstTimed, hz, if_true] at h
      obtain ⟨e', x, y, z⟩ := ih _ _ h
      refine ⟨e', ?_, by omega, z⟩
      rw [show q - b = (q - (b + 1)) + 1 by omega]
      simpa using x
    · simp only [firstTimed, hz, if_false, Option.some.injEq] at h
      subst h
      exact ⟨e, by simp, le_refl _, by omega⟩

/-- NEXT within a symbol returns a timed entry of its recipe (rule R127). -/
theorem nextPhase_same (p : Params) (c : Sym) (k : SymIdx) (q q' : PhaseIdx)
    (h : nextPhase p c k q = .phase k q') :
    q.toNat < q'.toNat ∧ q'.toNat < nph p c ∧ 1 ≤ (lut p c q'.toNat).units := by
  unfold nextPhase at h
  split at h
  · rename_i n hf
    cases h
    obtain ⟨e, x, y, z⟩ := firstTimed_some _ _ _ hf
    rw [List.getElem?_drop, show q.toNat + 1 + (n - (q.toNat + 1)) = n by omega] at x
    have hlt : n < nph p c := (List.getElem?_eq_some_iff.1 x).1
    have h4 : nph p c ≤ 4 := by cases c <;> simp [nph, recipe]
    have hn : (BitVec.ofNat 2 n).toNat = n := by simp; omega
    rw [hn]
    exact ⟨by omega, hlt, by simp [lut, x, z]⟩
  · split_ifs at h
    simp at h

/-- No entry of a recipe is longer than `units_left` can hold (rule R25). -/
theorem lut_units_le (p : Params) (hg : 1 ≤ p.gapUnits) (c : Sym) (q : Nat) (h : q < nph p c) :
    (lut p c q).units ≤ p.maxUnits := by
  have m1 : p.longUnits ≤ p.maxUnits := le_max_left _ _
  have m2 : p.startLowUnits ≤ p.maxUnits := le_trans (le_max_left _ _) (le_max_right _ _)
  have m3 : p.gapUnits ≤ p.maxUnits := le_trans (le_max_right _ _) (le_max_right _ _)
  cases c <;> simp only [nph, recipe, List.length_cons, List.length_nil] at h <;>
    interval_cases q <;> simp <;> omega

/-- Every entry's units fit the `UW` bits of the LUTE format, the '-' entries included (rule R79). -/
theorem lut_units_lt (p : Params) (hg : 1 ≤ p.gapUnits) (c : Sym) (q : Nat) :
    (lut p c q).units < 2 ^ p.uw := by
  by_cases h : q < nph p c
  · exact Nat.lt_of_le_of_lt (lut_units_le p hg c q h) (maxUnits_lt p)
  · rw [lut, List.getElem?_eq_none (Nat.le_of_not_lt h), Option.getD_none]
    exact LutEntry.ofWord_units_lt _ _

/-- The LUTE word of `LUT(code, q)` holds the entry whole (rule R79). -/
theorem lutWord_entry (p : Params) (hg : 1 ≤ p.gapUnits) (c : Sym) (q : Nat) :
    LutEntry.ofWord p.uw (lutWord p c q) = lut p c q :=
  LutEntry.ofWord_word _ _ (lut_units_lt p hg c q)

/-- Everything one busy edge can do (rule R151, the branch after the immediate ABORT). -/
theorem advance_cases (p : Params) (r : Regs) (c : Sym) (req : Bool) (hb : r.st = .send ∨ r.st = .gap) :
    (p.abortAtBoundary = true ∧ req = true ∧ advance p r c req = r.ended .aborted) ∨
    (r.tick < p.unitCycles - 1 ∧
      advance p r c req = { r with tick := r.tick + 1, abortPending := req }) ∨
    (p.unitCycles - 1 ≤ r.tick ∧ 1 < r.unitsLeft ∧
      advance p r c req =
        { r with tick := 0, unitsLeft := r.unitsLeft - 1, abortPending := req }) ∨
    (r.st = .send ∧ r.phaseEnds p ∧ ∃ q, nextPhase p c r.symIdx r.phase = .phase r.symIdx q ∧
      advance p r c req =
        { r.atPhase r.symIdx q (lut p c q.toNat).level (lut p c q.toNat).units with
          abortPending := req }) ∨
    (r.st = .send ∧ r.phaseEnds p ∧ nextPhase p c r.symIdx r.phase = afterSymbol r.symIdx ∧
      advance p r c req =
        if r.symIdx < 33#6 then r.atPhase (r.symIdx + 1#6) 0#2 true 1 else r.atGap p.gapUnits) ∨
    (r.st = .gap ∧ r.phaseEnds p ∧ r.repLeft = 0 ∧ advance p r c req = r.ended .done) ∨
    (r.st = .gap ∧ r.phaseEnds p ∧ 0 < r.repLeft ∧ advance p r c req =
      { r with repLeft := r.repLeft - 1, st := .send }.atPhase 0#6 0#2 true 1) := by
  by_cases ha : p.abortAtBoundary = true ∧ r.st = .gap ∧ req = true
  · obtain ⟨h1, h2, rfl⟩ := ha
    exact .inl ⟨h1, rfl, advance_gap_abort p r c h1 h2⟩
  rw [advance_timer p r c req ha]
  rcases timerStep_cases p r with ⟨h, e⟩ | ⟨h, h', e⟩ | ⟨h, e⟩
  · exact .inr (.inl ⟨h, by rw [e]⟩)
  · exact .inr (.inr (.inl ⟨h, h', by rw [e]⟩))
  rw [e]
  rcases hb with hs | hg
  · simp only [hs, if_true]
    rcases nextPhase_cases p c r.symIdx r.phase with ⟨q, hq⟩ | hn
    · exact .inr (.inr (.inr (.inl ⟨trivial, h, q, hq, sendPhaseEnd_same p r c req q hq⟩)))
    · by_cases hr : p.abortAtBoundary = true ∧ req = true
      · obtain ⟨hp, rfl⟩ := hr
        exact .inl ⟨hp, rfl, sendPhaseEnd_abort p r c hn hp⟩
      · exact .inr (.inr (.inr (.inr (.inl ⟨trivial, h, hn, sendPhaseEnd_next p r c req hn hr⟩))))
  · simp only [hg, reduceCtorEq, if_false]
    by_cases h0 : r.repLeft = 0
    · exact .inr (.inr (.inr (.inr (.inr (.inl ⟨trivial, h, h0, gapPhaseEnd_done p r h0⟩)))))
    · exact .inr (.inr (.inr (.inr (.inr (.inr ⟨trivial, h, by omega, gapPhaseEnd_again p r (by omega)⟩)))))

/-- The accepted START of rule R154, register by register. -/
theorem acceptStart_eq (p : Params) (r : Regs) (inp : Inputs) :
    acceptStart p r inp =
      { st := .send, frame := frameOf inp.payload, repLeft := inp.repeatCount - 1, tick := 0,
        unitsLeft := 1, line := true, status := .none, symIdx := 0#6, phase := 0#2,
        abortPending := false } := by
  unfold acceptStart
  rw [load_first]
  rfl

end Sys2Proof.Machine
end

