-- ==== Sys2Proof/Laws/Encode.lean ====
section
/-! SUPPORT. The frame of a payload, symbol by symbol and bit by bit. -/

namespace Sys2Proof.Machine

@[simp] theorem ofCode_code (c : Sym) : Sym.ofCode c.code = c := by cases c <;> rfl

theorem code_ofCode (c : SymCode) : (Sym.ofCode c).code = c := by revert c; decide

@[simp] theorem dataSymbols_length (P : Payload) : (dataSymbols P).length = 32 := by
  simp [dataSymbols]

@[simp] theorem frameSymbols_length (P : Payload) : (frameSymbols P).length = 34 := by
  simp [frameSymbols]

/-- A packed list is below `4 ^ length`. -/
theorem packSymbols_lt (cs : List Sym) : packSymbols cs < 4 ^ cs.length := by
  induction cs with
  | nil => simp [packSymbols]
  | cons c cs ih =>
    have hc : c.code.toNat < 4 := c.code.isLt
    simp only [packSymbols, List.length_cons, Nat.pow_succ]
    omega

/-- Bit `2k + b` of a packed list is bit `b` of symbol `k`'s code. -/
theorem packSymbols_testBit (cs : List Sym) (k b : Nat) (hb : b < 2) :
    (packSymbols cs).testBit (2 * k + b) =
      match cs[k]? with
      | some c => c.code.getLsbD b
      | none => false := by
  induction cs generalizing k with
  | nil => simp [packSymbols]
  | cons c cs ih =>
    have hc : c.code.toNat < 2 ^ 2 := c.code.isLt
    have e : packSymbols (c :: cs) = 2 ^ 2 * packSymbols cs + c.code.toNat := by
      simp [packSymbols]; omega
    rw [e, Nat.testBit_two_pow_mul_add _ hc]
    cases k with
    | zero =>
      have : 2 * 0 + b < 2 := by omega
      rw [if_pos this]
      simp [BitVec.getLsbD]
    | succ k =>
      rw [if_neg (by omega), show 2 * (k + 1) + b - 2 = 2 * k + b by omega, ih]
      simp

/-- Bit `2k + b` of a payload's frame is bit `b` of symbol `k`'s code (rule R75). -/
theorem frameOf_getLsbD (P : Payload) (k b : Nat) (hk : k < 34) (hb : b < 2) :
    (frameOf P).getLsbD (2 * k + b) =
      ((frameSymbols P)[k]'(by simpa using hk)).code.getLsbD b := by
  have h68 : 2 * k + b < 68 := by omega
  rw [frameOf, BitVec.getLsbD_ofNat, packSymbols_testBit _ _ _ hb]
  simp [h68, hk]

/-- A data symbol of a frame. -/
theorem frameSymbols_data (P : Payload) (k : Nat) (h1 : 1 ≤ k) (h2 : k ≤ 32) :
    (frameSymbols P)[k]'(by simp; omega) = dataSym (P.getLsbD (32 - k)) := by
  obtain ⟨j, rfl⟩ : ∃ j, k = j + 1 := ⟨k - 1, by omega⟩
  have hj : j < (dataSymbols P).length := by simp; omega
  simp only [frameSymbols, List.getElem_cons_succ, List.getElem_append_left hj]
  simp only [dataSymbols, List.getElem_map, List.getElem_range]
  congr 2
  omega

theorem dataSym_code (b : Bool) : (dataSym b).code = 0#1 ++ BitVec.ofBool b := by
  cases b <;> rfl

/-- The low bit of a data symbol is its bit, the high bit 0 (rule R74). -/
theorem frameOf_data_bits (P : Payload) (k : Nat) (h1 : 1 ≤ k) (h2 : k ≤ 32) :
    (frameOf P).getLsbD (2 * k + 1) = false ∧
    (frameOf P).getLsbD (2 * k) = P.getLsbD (32 - k) := by
  have a := frameOf_getLsbD P k 1 (by omega) (by omega)
  have b := frameOf_getLsbD P k 0 (by omega) (by omega)
  rw [frameSymbols_data P k h1 h2] at a b
  rw [Nat.add_zero] at b
  rw [a, b]
  cases P.getLsbD (32 - k) <;> exact ⟨rfl, rfl⟩

/-- The start marker's bits (rule R75). -/
theorem frameOf_first_bits (P : Payload) :
    (frameOf P).getLsbD 0 = false ∧ (frameOf P).getLsbD 1 = true := by
  have a := frameOf_getLsbD P 0 0 (by omega) (by omega)
  have b := frameOf_getLsbD P 0 1 (by omega) (by omega)
  have e : (frameSymbols P)[0]'(by simp) = .B := rfl
  rw [e] at a b
  exact ⟨a.trans (by decide), b.trans (by decide)⟩

/-- The stop marker's bits (rule R75). -/
theorem frameOf_last_bits (P : Payload) :
    (frameOf P).getLsbD 66 = true ∧ (frameOf P).getLsbD 67 = true := by
  have a := frameOf_getLsbD P 33 0 (by omega) (by omega)
  have b := frameOf_getLsbD P 33 1 (by omega) (by omega)
  have e : (frameSymbols P)[33]'(by simp) = .E := by
    simp [frameSymbols, List.getElem_append_right]
  rw [e] at a b
  exact ⟨a.trans (by decide), b.trans (by decide)⟩

/-- The code of a symbol inside the frame is its two bits. -/
theorem codeAt_bits (f : Frame) (k : SymIdx) (h : k ≤ 33#6) :
    (codeAt f k).getLsbD 0 = f.getLsbD (2 * k.toNat) ∧
    (codeAt f k).getLsbD 1 = f.getLsbD (2 * k.toNat + 1) := by
  simp [codeAt, h]

/-- Symbol `k` of a payload's frame. -/
theorem symAt_frameOf (P : Payload) (k : SymIdx) (h : k ≤ 33#6) :
    symAt (frameOf P) k =
      (frameSymbols P)[k.toNat]'(by simp; have : k.toNat ≤ 33 := h; omega) := by
  have hk : k.toNat ≤ 33 := h
  obtain ⟨a, b⟩ := codeAt_bits (frameOf P) k h
  have a' := frameOf_getLsbD P k.toNat 0 (by omega) (by omega)
  have b' := frameOf_getLsbD P k.toNat 1 (by omega) (by omega)
  have e : codeAt (frameOf P) k = ((frameSymbols P)[k.toNat]'(by simp; omega)).code := by
    apply BitVec.eq_of_getLsbD_eq
    intro i hi
    match i, hi with
    | 0, _ => rw [a, ← a', Nat.add_zero]
    | 1, _ => rw [b, ← b']
  rw [symAt, e, ofCode_code]

end Sys2Proof.Machine
end

