-- ==== Sys2Proof/Laws/Step.lean ====
section
/-! SUPPORT. What a step can do, said once: every answer of a step, and the meanings of the four symbols
as one law. -/

namespace Sys2Proof.Machine

/-- The four symbols share one meaning, each over its own recipe. -/
theorem exec_symbol (c : Sym) (s : State) :
    exec c.instr s = .next (s.withRegs (playEdge s.params s.regs c)) := by cases c <;> rfl

theorem decode_sym (c : SymCode) : decode (.sym c) = (Sym.ofCode c).instr := rfl

theorem playEdge_idle (p : Params) (r : Regs) (c : Sym) (h : r.st.isIdle = true) :
    playEdge p r c = r := by simp [playEdge, h]

theorem playEdge_busy (p : Params) (r : Regs) (c : Sym) (h : r.st.isIdle = false) :
    playEdge p r c = advance p r c r.abortPending := by simp [playEdge, h]

theorem startEdge_busy (p : Params) (r : Regs) (inp : Inputs) (h : r.st.isIdle = false) :
    startEdge p r inp = playEdge p r r.currentSym := by simp [startEdge, h]

theorem abortEdge_idle (p : Params) (r : Regs) (h : r.st.isIdle = true) : abortEdge p r = r := by
  simp [abortEdge, h]

theorem decode_ctrlWord : ∀ rst abort start : Bool,
    decode (.ctrl (ctrlWord rst abort start)) =
      if rst then .reset abort start
      else if abort then .abort start
      else if start then .start else .nop := by decide

theorem ctrlWord_eq_zero : ∀ rst abort start : Bool,
    ctrlWord rst abort start = 0b000#3 ↔ rst = false ∧ abort = false ∧ start = false := by decide

/-- The decoded CTRL word of the ports (rule R77). -/
theorem decode_ctrl (inp : Inputs) :
    decode (.ctrl inp.ctrl) =
      if inp.rst then .reset inp.abort inp.start
      else if inp.abort then .abort inp.start
      else if inp.start then .start else .nop := decode_ctrlWord _ _ _

theorem ctrl_eq_zero (inp : Inputs) :
    inp.ctrl = 0b000#3 ↔ inp.rst = false ∧ inp.abort = false ∧ inp.start = false :=
  ctrlWord_eq_zero _ _ _

/-- The fields of an assembled payload (rule R71). -/
theorem payloadOf_fields (i : BitVec 26) (g s : BitVec 1) (u : BitVec 4) :
    (payloadOf i g s u).extractLsb' 6 26 = i ∧ (payloadOf i g s u).extractLsb' 5 1 = g ∧
    (payloadOf i g s u).extractLsb' 4 1 = s ∧ (payloadOf i g s u).extractLsb' 0 4 = u := by
  refine ⟨?_, ?_, ?_, ?_⟩ <;> ext j hj <;> simp [payloadOf] <;> grind

/-- The payload on the ports decodes to the operands the ports hold. -/
theorem decode_payload (inp : Inputs) (h : inp.operandsOk = true) :
    decode (.payload inp.payload) = .encode inp.identity inp.group inp.state inp.unit := by
  obtain ⟨clk, rst, start, abort, i, g, s, u, n⟩ := inp
  simp only [Inputs.operandsOk, operandsFit, Bool.and_eq_true, decide_eq_true_eq] at h
  obtain ⟨⟨⟨hi, hg⟩, hs⟩, hu⟩ := h
  obtain ⟨e1, e2, e3, e4⟩ := payloadOf_fields (BitVec.ofNat 26 i) (BitVec.ofNat 1 g)
    (BitVec.ofNat 1 s) (BitVec.ofNat 4 u)
  simp only [decode, Inputs.payload, e1, e2, e3, e4, BitVec.toNat_ofNat]
  rw [Nat.mod_eq_of_lt hi, Nat.mod_eq_of_lt (by omega : g < 2 ^ 1),
    Nat.mod_eq_of_lt (by omega : s < 2 ^ 1), Nat.mod_eq_of_lt (by omega : u < 2 ^ 4)]

/-! ### The registers after an edge -/

/-- What one clock edge does to the registers, command by command (rule R77). -/
def edgeRegs (p : Params) (r : Regs) (inp : Inputs) : Regs :=
  if inp.rst then Regs.reset
  else if inp.abort then abortEdge p r
  else if inp.start then startEdge p r inp
  else playEdge p r r.currentSym

/-- An ENCODE step: no register changes. -/
theorem step_noEdge (s : State) (hw : s.params.wf = true) (hc : s.ports.clk = false)
    (ho : s.ports.operandsOk = true) : step s = .next s.nextInputs := by
  have ho' := ho
  rw [Inputs.operandsOk] at ho'
  simp [step, hw, fetchWord, hc, ho, decode_payload _ ho, exec, execEncode, ho']

theorem step_badPayload (s : State) (hw : s.params.wf = true) (hc : s.ports.clk = false)
    (ho : s.ports.operandsOk = false) : step s = .refused .invalidArgument := by
  simp [step, hw, fetchWord, hc, ho]

/-- A step at a clock edge, when START's operands (if START is the command) fit the ports. -/
theorem step_edge (s : State) (hw : s.params.wf = true) (hc : s.ports.clk = true)
    (ho : s.ports.rst = false → s.ports.abort = false → s.ports.start = true →
      s.ports.operandsOk = true ∧ s.ports.repeatOk s.params = true) :
    step s = .next (s.withRegs (edgeRegs s.params s.regs s.ports)).nextInputs := by
  have sym : ∀ c : SymCode, exec (decode (.sym c)) s =
      .next (s.withRegs (playEdge s.params s.regs (Sym.ofCode c))) := fun c => by
    rw [decode_sym, exec_symbol]
  by_cases hz : s.ports.ctrl = 0b000#3 ∧ s.regs.st = .send
  · obtain ⟨h0, hs⟩ := hz
    have h := (ctrl_eq_zero _).1 h0
    simp only [step, hw, fetchWord, hc, h0, hs, and_self, if_true, sym]
    simp [edgeRegs, h.1, h.2.1, h.2.2, Regs.currentSym, symAt]
  · simp only [step, hw, fetchWord, hc, if_true, if_neg hz, decode_ctrl]
    cases hr : s.ports.rst
    · cases ha : s.ports.abort
      · cases hst : s.ports.start
        · simp [exec, execNop, edgeRegs, hr, ha, hst]
        · obtain ⟨h1, h2⟩ := ho hr ha hst
          simp [exec, execStart, edgeRegs, hr, ha, hst, h1, h2]
      · simp [exec, execAbort, edgeRegs, hr, ha]
    · simp [exec, execReset, edgeRegs, hr]

/-- Every answer of a step that goes on: no register changes, or the edge's registers. -/
theorem step_next (s t : State) (h : step s = .next t) :
    s.params.wf = true ∧
    ((s.ports.clk = false ∧ s.ports.operandsOk = true ∧ t = s.nextInputs) ∨
     (s.ports.clk = true ∧
      (s.ports.rst = false → s.ports.abort = false → s.ports.start = true →
        s.ports.operandsOk = true ∧ s.ports.repeatOk s.params = true) ∧
      t = (s.withRegs (edgeRegs s.params s.regs s.ports)).nextInputs)) := by
  by_cases hw : s.params.wf = true
  swap
  · simp [step, hw] at h
  refine ⟨hw, ?_⟩
  cases hc : s.ports.clk
  · cases ho : s.ports.operandsOk
    · rw [step_badPayload s hw hc ho] at h; cases h
    · rw [step_noEdge s hw hc ho] at h
      cases h
      exact .inl ⟨rfl, rfl, rfl⟩
  · by_cases hg : s.ports.rst = false → s.ports.abort = false → s.ports.start = true →
        s.ports.operandsOk = true ∧ s.ports.repeatOk s.params = true
    · rw [step_edge s hw hc hg] at h
      cases h
      exact .inr ⟨rfl, hg, rfl⟩
    · exfalso
      push Not at hg
      obtain ⟨hr, ha, hs, hn⟩ := hg
      have h0 : ¬(s.ports.ctrl = 0b000#3 ∧ s.regs.st = .send) := by
        rintro ⟨h0, -⟩
        have := ((ctrl_eq_zero _).1 h0).2.2
        simp [hs] at this
      simp only [step, hw, fetchWord, hc, if_true, if_neg h0, decode_ctrl, hr, ha, hs,
        Bool.false_eq_true, if_false, exec, execStart] at h
      by_cases ho : s.ports.operandsOk = true
      · have hp : s.ports.repeatOk s.params = false := by simpa using hn ho
        simp [ho, hp] at h
      · simp [ho] at h

/-- What an edge can do to the registers, said once (rules R151 and R77). -/
theorem edgeRegs_cases (p : Params) (r : Regs) (inp : Inputs) :
    (inp.rst = true ∧ edgeRegs p r inp = Regs.reset) ∨
    (inp.rst = false ∧ r.st.isIdle = true ∧ (inp.abort = true ∨ inp.start = false) ∧
      edgeRegs p r inp = r) ∨
    (inp.rst = false ∧ r.st.isIdle = true ∧ inp.abort = false ∧ inp.start = true ∧
      inp.repeatCount = 0 ∧ edgeRegs p r inp = { r with status := .rejected }) ∨
    (inp.rst = false ∧ r.st.isIdle = true ∧ inp.abort = false ∧ inp.start = true ∧
      inp.repeatCount ≠ 0 ∧ edgeRegs p r inp = acceptStart p r inp) ∨
    (inp.rst = false ∧ r.st.isIdle = false ∧ inp.abort = true ∧ p.abortAtBoundary = false ∧
      edgeRegs p r inp = r.ended .aborted) ∨
    (inp.rst = false ∧ r.st.isIdle = false ∧ (inp.abort = true → p.abortAtBoundary = true) ∧
      edgeRegs p r inp = advance p r r.currentSym (r.abortPending || inp.abort)) := by
  unfold edgeRegs
  cases hr : inp.rst
  swap
  · simp
  cases hi : r.st.isIdle
  · cases ha : inp.abort
    · cases hs : inp.start <;> simp [startEdge, playEdge, hi]
    · cases hp : p.abortAtBoundary <;> simp [abortEdge, hi, hp, goIdle_eq_ended]
  · cases ha : inp.abort
    · cases hs : inp.start
      · simp [playEdge, hi]
      · by_cases h0 : inp.repeatCount = 0 <;> simp [startEdge, hi, h0]
    · simp [abortEdge, hi]

end Sys2Proof.Machine
end

