-- ==== Sys2Proof/Laws/PerInstr.lean ====
section
/-! SUPPORT. Laws stated of every instruction, one lemma per constructor: an encoded instruction matches
exactly its own row of spec/opcode_table.json. -/

namespace Sys2Proof.Laws

/-- The rows of the opcode table that the instruction's word matches are its own row and no other. -/
def EncodeMatchesRow.Statement (i : Instr) : Prop :=
  (opcodeTable.filter fun row => row.matchesBits (encode i).bits).map OpcodeRow.mnemonic = [i.mnemonic]

theorem EncodeMatchesRow.encode (identity group state unit : Nat) :
    EncodeMatchesRow.Statement (.encode identity group state unit) := by
  simp [EncodeMatchesRow.Statement, opcodeTable, OpcodeRow.matchesBits, Sys2Proof.encode,
    EncWord.bits, Instr.mnemonic]

theorem EncodeMatchesRow.sym0 : EncodeMatchesRow.Statement .sym0 := by
  unfold EncodeMatchesRow.Statement; decide
theorem EncodeMatchesRow.sym1 : EncodeMatchesRow.Statement .sym1 := by
  unfold EncodeMatchesRow.Statement; decide
theorem EncodeMatchesRow.symB : EncodeMatchesRow.Statement .symB := by
  unfold EncodeMatchesRow.Statement; decide
theorem EncodeMatchesRow.symE : EncodeMatchesRow.Statement .symE := by
  unfold EncodeMatchesRow.Statement; decide
theorem EncodeMatchesRow.nop : EncodeMatchesRow.Statement .nop := by
  unfold EncodeMatchesRow.Statement; decide
theorem EncodeMatchesRow.start : EncodeMatchesRow.Statement .start := by
  unfold EncodeMatchesRow.Statement; decide
theorem EncodeMatchesRow.abort (start : Bool) : EncodeMatchesRow.Statement (.abort start) := by
  cases start <;> (unfold EncodeMatchesRow.Statement; decide)
theorem EncodeMatchesRow.reset (abort start : Bool) :
    EncodeMatchesRow.Statement (.reset abort start) := by
  cases abort <;> cases start <;> (unfold EncodeMatchesRow.Statement; decide)

end Sys2Proof.Laws
end

