-- ==== Sys2Proof/Tests/Slice0.lean ====
section
/-! SUPPORT. Tests. Expected values are from spec/95_test_vectors.md (the vector is named) or from the
encoding tables of spec/30_encoding.md; the `witness_` theorems show a state that meets all hypotheses of a
statement together. -/

namespace Sys2Proof.Tests

open Sys2Proof Sys2Proof.Machine

/-! ### Well-formedness: each check refuses an ill-formed term -/

theorem test_wf_identity_too_wide : (Instr.encode (2 ^ 26) 0 0 0).wellFormed = false := by decide
theorem test_wf_group_too_wide : (Instr.encode 0 2 0 0).wellFormed = false := by decide
theorem test_wf_state_too_wide : (Instr.encode 0 0 2 0).wellFormed = false := by decide
theorem test_wf_unit_too_wide : (Instr.encode 0 0 0 16).wellFormed = false := by decide
theorem test_wf_largest : (Instr.encode (2 ^ 26 - 1) 1 1 15).wellFormed = true := by decide

/-! ### Decoding: words written out from rules R71, R73 and R77 -/

theorem test_decode_encode :
    decode (.payload 0b11000000000000000000000001101001#32) = .encode 0x3000001 1 0 9 := by decide
theorem test_decode_sym0 : decode (.sym 0b00#2) = .sym0 := by decide
theorem test_decode_sym1 : decode (.sym 0b01#2) = .sym1 := by decide
theorem test_decode_symB : decode (.sym 0b10#2) = .symB := by decide
theorem test_decode_symE : decode (.sym 0b11#2) = .symE := by decide
theorem test_decode_nop : decode (.ctrl 0b000#3) = .nop := by decide
theorem test_decode_start : decode (.ctrl 0b001#3) = .start := by decide
theorem test_decode_abort : decode (.ctrl 0b010#3) = .abort false := by decide
theorem test_decode_reset : decode (.ctrl 0b101#3) = .reset false true := by decide
theorem test_decode_rejects_wide_word :
    decodeBits .ctrl 8 = .error .bitsAboveFormat := by rfl
theorem test_decode_table_word_payload : decodeTableWord 32 0x45 = some (.encode 1 0 0 5) := by decide
theorem test_decode_table_word_byte : decodeTableWord 8 4 = some (.reset false false) := by decide

/-! ### Small states -/

/-- The defaults with `UNIT_CYCLES = 2`. -/
def p2 : Params := Params.defaults 2
/-- The same in boundary mode. -/
def p2b : Params := { p2 with abortAtBoundary := true }
/-- The frame of vector V1. -/
def f1 : Frame := 0xC0100000000000002#68
/-- A state in SEND at a position of the frame of V1. -/
def sendAt (p : Params) (k : SymIdx) (q : PhaseIdx) (line : Bool) (units tick : Nat) : State :=
  { State.resetWith p with
    regs := ⟨.send, f1, 0, tick, units, line, .none, k, q, false⟩
    host := [Inputs.none] }
/-- A state in GAP. -/
def gapAt (p : Params) (rep units tick : Nat) : State :=
  { State.resetWith p with
    regs := ⟨.gap, f1, rep, tick, units, false, .none, 33#6, 0#2, false⟩
    host := [Inputs.none] }
/-- The ports of the START of vector V20, with a repeat count. -/
def startPorts (r : Nat) : Inputs := ⟨true, false, true, false, 0, 0, 1, 0, r⟩
/-- The reset state with that START at its ports. -/
def startAt (p : Params) (r : Nat) : State :=
  { State.resetWith p with ports := startPorts r, host := [Inputs.none] }
/-- The state with an ABORT pending. -/
def pending (s : State) : State := s.withRegs { s.regs with abortPending := true }

/-- The registers after a step, if it goes on. -/
def regsAfter (s : State) : Option Regs :=
  match step s with
  | .next t => some t.regs
  | .fault _ => none
  | .refused _ => none

/-! ### One step each: vectors of spec/95_test_vectors.md -/

theorem test_enc_v1 : enc 0#26 0#1 1#1 0#4 = 0xC0100000000000002#68 := by decide
theorem test_enc_v5 : enc 0x2AAAAAA#26 0#1 1#1 10#4 = 0xC4504444444444446#68 := by decide
theorem test_dec_v2 : dec 0xD1010000000000002#68 = (1#26, 0#1, 0#1, 5#4) := by decide
theorem test_text_v1 : textOf 0xC0100000000000002#68 = "B00000000000000000000000000010000E".toList := by
  decide
theorem test_encode_v9 :
    exec (.encode (2 ^ 26) 0 1 0) State.reset = .refused .invalidArgument := by rfl
theorem test_start_v20 : regsAfter (startAt (Params.defaults 1) 1) =
    some ⟨.send, f1, 0, 0, 1, true, .none, 0#6, 0#2, false⟩ := by decide
theorem test_start_rejected_v25 : regsAfter (startAt (Params.defaults 1) 0) =
    some { Regs.reset with status := .rejected } := by decide
theorem test_symB_v17 : regsAfter (sendAt p2 0#6 0#2 true 1 1) =
    some ⟨.send, f1, 0, 0, 9, false, .none, 0#6, 1#2, false⟩ := by decide
theorem test_symE_v18 : regsAfter (sendAt (Params.defaults 1) 33#6 0#2 true 1 0) =
    some ⟨.gap, f1, 0, 0, 60, false, .none, 33#6, 0#2, false⟩ := by decide
theorem test_sym0_v15 : regsAfter (sendAt (Params.defaults 1) 1#6 2#2 true 1 0) =
    some ⟨.send, f1, 0, 0, 3, false, .none, 1#6, 3#2, false⟩ := by decide
theorem test_sym1_v16 : regsAfter (sendAt (Params.defaults 1) 28#6 0#2 true 1 0) =
    some ⟨.send, f1, 0, 0, 3, false, .none, 28#6, 1#2, false⟩ := by decide
theorem test_nop_completes_v20 : regsAfter (gapAt (Params.defaults 1) 0 1 0) =
    some ⟨.idle, f1, 0, 0, 0, false, .done, 0#6, 0#2, false⟩ := by decide
theorem test_nop_next_attempt_v21 : regsAfter (gapAt (Params.defaults 1) 1 1 0) =
    some ⟨.send, f1, 0, 0, 1, true, .none, 0#6, 0#2, false⟩ := by decide
theorem test_abort_v26 : regsAfter
    ((sendAt (Params.defaults 1) 0#6 1#2 false 6 0).withPorts { Inputs.none with abort := true }) =
    some ⟨.idle, f1, 0, 0, 0, false, .aborted, 0#6, 0#2, false⟩ := by decide
theorem test_abort_boundary_v27 : regsAfter
    ((sendAt { Params.defaults 1 with abortAtBoundary := true } 0#6 0#2 true 1 0).withPorts
      { Inputs.none with abort := true }) =
    some ⟨.send, f1, 0, 0, 9, false, .none, 0#6, 1#2, true⟩ := by decide
/-- Vector V36: RESET from its arbitrary state. -/
theorem test_reset_v36 : regsAfter
    { State.resetWith (Params.defaults 1) with
      regs := ⟨.send, 0x123#68, 3, 0, 1, true, .done, 7#6, 2#2, false⟩
      ports := { Inputs.none with rst := true } } = some Regs.reset := by decide
theorem test_program_line : lineOf "@1   START id=0x3000001 g=1 s=0 u=9 r=0".toList =
    some ⟨1, .start 0x3000001 1 0 9 0⟩ := by decide

/-- The step runs SYM_1 where `withFetchWord` puts it: NEXT from its first phase. -/
theorem test_withFetchWord_sym1 :
    fetchWord (State.reset.withFetchWord 2 1) = some (.sym 0b01#2) := by decide
theorem test_withFetchWord_encode :
    (fetchWord (State.reset.withFetchWord 32 0x45)).map decode = some (.encode 1 0 0 5) := by decide
theorem test_withFetchWord_abort :
    (fetchWord (State.reset.withFetchWord 3 2)).map decode = some (.abort false) := by decide

/-! ### Witnesses: the hypotheses of each statement, met together -/

theorem witness_DecodeInvertsEncode :
    (Instr.encode (2 ^ 26 - 1) 1 1 15).wellFormed = true ∧ (Instr.abort true).wellFormed = true := by
  decide
theorem witness_OpcodeRowsDisjoint :
    2 ^ 32 - 1 < 2 ^ Format.enc.width ∧ 3 < 2 ^ Format.sym.width ∧ 7 < 2 ^ Format.ctrl.width := by
  decide
theorem witness_FrameLayout_first_data_symbol : 1 ≤ 1 ∧ 1 ≤ 32 := by decide
theorem witness_FrameLayout_last_data_symbol : 1 ≤ 32 ∧ 32 ≤ 32 := by decide
theorem witness_DecInvertsEnc : 1 ≤ 32 ∧ 32 ≤ 32 := by decide
theorem witness_DistinctCommandsDistinctWaveforms :
    2 ≤ ({ p2 with longUnits := 2 } : Params).longUnits ∧
    ((0#26, 0#1, 0#1, 0#4) : BitVec 26 × BitVec 1 × BitVec 1 × BitVec 4) ≠ (0#26, 0#1, 0#1, 1#4) := by
  decide
theorem witness_TextFrames_foreign_character : ∃ ch ∈ ['B', 'x'], ch ∉ ['B', 'E', '0', '1'] :=
  ⟨'x', by simp, by simp⟩
theorem witness_TextFrames_length_33 :
    let text := 'B' :: List.replicate 31 '0' ++ ['E']
    (∀ ch ∈ text, ch ∈ ['B', 'E', '0', '1']) ∧ text.length = 33 := by simp
theorem witness_TextFrames_length_35 :
    let text := 'B' :: List.replicate 33 '1' ++ ['E']
    (∀ ch ∈ text, ch ∈ ['B', 'E', '0', '1']) ∧ text.length = 35 := by simp
theorem witness_TextFrames_no_B :
    let text := List.replicate 33 '0' ++ ['E']
    (∀ ch ∈ text, ch ∈ ['B', 'E', '0', '1']) ∧ text.length = 34 ∧ text.head? ≠ some 'B' := by simp
theorem witness_TextFrames_no_E :
    let text := 'B' :: List.replicate 33 '0'
    (∀ ch ∈ text, ch ∈ ['B', 'E', '0', '1']) ∧ text.length = 34 ∧ text.getLast? ≠ some 'E' := by
  simp [List.getLast?_cons]
theorem witness_TextFrames_marker_inside :
    let text := 'B' :: 'B' :: List.replicate 31 '0' ++ ['E']
    (∀ ch ∈ text, ch ∈ ['B', 'E', '0', '1']) ∧ text.length = 34 ∧
      ∃ ch ∈ text.tail.dropLast, ch ∉ ['0', '1'] := by
  refine ⟨by simp, by simp, 'B', ?_, by simp⟩
  simp
theorem witness_EncodeCompletes :
    2 ^ 26 - 1 < 2 ^ 26 ∧ 1 < 2 ∧ 1 < 2 ∧ 15 < 16 := by decide
theorem witness_EncFrameIgnoresRegisters : (startAt p2 1).ports.operandsOk = true := by decide
theorem witness_OutOfRange_encode :
    2 ^ 26 ≤ 2 ^ 26 ∨ 2 ≤ 0 ∨ 2 ≤ 0 ∨ 16 ≤ 0 := by decide
theorem witness_OutOfRange_start :
    let s := (startAt p2 1).withPorts { startPorts 1 with unit := 16 }
    2 ^ 26 ≤ s.ports.identity ∨ 2 ≤ s.ports.group ∨ 2 ≤ s.ports.state ∨ 16 ≤ s.ports.unit := by decide
theorem witness_OutOfRange_repeatCount :
    (startAt p2 256).ports.operandsOk = true ∧
    2 ^ (startAt p2 256).params.repW ≤ (startAt p2 256).ports.repeatCount := by decide

theorem witness_SymBPhases_0 :
    let s := sendAt p2 0#6 0#2 true 1 1
    s.regs.st = .send ∧ s.regs.phaseEnds s.params ∧ s.regs.symIdx < 33#6 ∧
      1 ≤ s.params.startLowUnits ∧ s.regs.phase = 0#2 := by decide
theorem witness_SymBPhases_1 :
    let s := sendAt p2 32#6 1#2 false 1 1
    s.regs.st = .send ∧ s.regs.phaseEnds s.params ∧ s.regs.symIdx < 33#6 ∧
      1 ≤ s.params.startLowUnits ∧ s.regs.phase = 1#2 := by decide
theorem witness_SymEPhases :
    let s := sendAt p2 33#6 0#2 true 1 1
    s.regs.st = .send ∧ s.regs.phaseEnds s.params ∧ s.regs.symIdx = 33#6 ∧ s.regs.phase = 0#2 := by
  decide
theorem witness_Sym0Phases_0 :
    let s := sendAt p2 1#6 0#2 true 1 1
    s.regs.st = .send ∧ s.regs.phaseEnds s.params ∧ s.regs.symIdx < 33#6 ∧
      1 ≤ s.params.longUnits ∧ s.regs.phase = 0#2 := by decide
theorem witness_Sym0Phases_1 :
    let s := sendAt p2 1#6 1#2 false 1 1
    s.regs.st = .send ∧ s.regs.phaseEnds s.params ∧ s.regs.symIdx < 33#6 ∧
      1 ≤ s.params.longUnits ∧ s.regs.phase = 1#2 := by decide
theorem witness_Sym0Phases_2 :
    let s := sendAt p2 1#6 2#2 true 1 1
    s.regs.st = .send ∧ s.regs.phaseEnds s.params ∧ s.regs.symIdx < 33#6 ∧
      1 ≤ s.params.longUnits ∧ s.regs.phase = 2#2 := by decide
theorem witness_Sym0Phases_3 :
    let s := sendAt p2 32#6 3#2 false 1 1
    s.regs.st = .send ∧ s.regs.phaseEnds s.params ∧ s.regs.symIdx < 33#6 ∧
      1 ≤ s.params.longUnits ∧ s.regs.phase = 3#2 := by decide
theorem witness_Sym1Phases_0 :
    let s := sendAt p2 28#6 0#2 true 1 1
    s.regs.st = .send ∧ s.regs.phaseEnds s.params ∧ s.regs.symIdx < 33#6 ∧
      1 ≤ s.params.longUnits ∧ s.regs.phase = 0#2 := by decide
theorem witness_Sym1Phases_1 :
    let s := sendAt p2 28#6 1#2 false 1 1
    s.regs.st = .send ∧ s.regs.phaseEnds s.params ∧ s.regs.symIdx < 33#6 ∧
      1 ≤ s.params.longUnits ∧ s.regs.phase = 1#2 := by decide
theorem witness_Sym1Phases_2 :
    let s := sendAt p2 28#6 2#2 true 1 1
    s.regs.st = .send ∧ s.regs.phaseEnds s.params ∧ s.regs.symIdx < 33#6 ∧
      1 ≤ s.params.longUnits ∧ s.regs.phase = 2#2 := by decide
theorem witness_Sym1Phases_3 :
    let s := sendAt p2 28#6 3#2 false 1 1
    s.regs.st = .send ∧ s.regs.phaseEnds s.params ∧ s.regs.symIdx < 33#6 ∧
      1 ≤ s.params.longUnits ∧ s.regs.phase = 3#2 := by decide
theorem witness_PhaseTimerCounts_tick :
    let s := sendAt p2 0#6 0#2 true 1 0
    s.regs.st = .send ∧ Instr.symB = Sym.B.instr ∧ s.regs.tick < s.params.unitCycles - 1 := by decide
theorem witness_PhaseTimerCounts_unit :
    let s := gapAt p2b 0 2 1
    s.regs.st = .gap ∧ ¬(s.params.abortAtBoundary = true ∧ s.regs.abortPending = true) ∧
      s.params.unitCycles - 1 ≤ s.regs.tick ∧ 1 < s.regs.unitsLeft := by decide
theorem witness_NextReturnsTimedPhases :
    p2.wf = true ∧ 33#6 ≤ 33#6 ∧ (1#2 : PhaseIdx).toNat < nph p2 .E := by decide
theorem witness_PhaseHeldExactly :
    let s := sendAt p2 0#6 1#2 false 9 0
    s.params.wf = true ∧ s.busy = true ∧
      ¬(s.params.abortAtBoundary = true ∧ s.regs.st = .gap ∧ s.regs.abortPending = true) ∧
      s.regs.tick = 0 ∧ s.regs.unitsLeft = 9 ∧ 1 ≤ 9 ∧ s.ports.undisturbed s.params ∧
      (∀ inp ∈ s.host.take (9 * s.params.unitCycles), inp.undisturbed s.params) ∧
      17 < 9 * s.params.unitCycles := by decide
theorem witness_SymbolPlaysItsRecipe :
    let s := sendAt p2 33#6 0#2 true 1 0
    s.Inv ∧ s.regs.st = .send ∧ s.regs = s.regs.atPhase s.regs.symIdx 0#2 true 1 ∧
      s.regs.abortPending = false ∧ s.ports.undisturbed s.params ∧
      (∀ inp ∈ s.host.take (symbolUnits s.params s.regs.currentSym * s.params.unitCycles),
        inp.undisturbed s.params) :=
  ⟨by decide, by decide, by decide, by decide, by decide, by decide⟩
/-- ABORT, with a START that is dropped, at the edge that ends the first cycle of `B` (vector V27). -/
theorem witness_BoundaryAbort_first_edge :
    let cut := { startPorts 1 with abort := true }
    let s := (sendAt p2b 0#6 0#2 true 1 0).withPorts cut
    s.params.wf = true ∧ s.params.abortAtBoundary = true ∧ s.regs.st = .send ∧
      s.regs = s.regs.atPhase s.regs.symIdx 0#2 true 1 ∧ s.regs.abortPending = false ∧
      (∀ inp ∈ (s.ports :: s.host).take
          (symbolUnits s.params s.regs.currentSym * s.params.unitCycles),
        inp.undisturbed s.params ∨ (inp.clk = true ∧ inp.rst = false ∧ inp.abort = true)) ∧
      (∃ inp ∈ (s.ports :: s.host).take
          (symbolUnits s.params s.regs.currentSym * s.params.unitCycles), inp.abort = true) := by
  decide
/-- ABORT at the edge that ends the last cycle of `E`, of two cycles. -/
theorem witness_BoundaryAbort_last_edge :
    let s := { sendAt p2b 33#6 0#2 true 1 0 with host := [{ Inputs.none with abort := true }] }
    s.params.wf = true ∧ s.params.abortAtBoundary = true ∧ s.regs.st = .send ∧
      s.regs = s.regs.atPhase s.regs.symIdx 0#2 true 1 ∧ s.regs.abortPending = false ∧
      symbolUnits s.params s.regs.currentSym * s.params.unitCycles = 2 ∧
      (∀ inp ∈ (s.ports :: s.host).take
          (symbolUnits s.params s.regs.currentSym * s.params.unitCycles),
        inp.undisturbed s.params ∨ (inp.clk = true ∧ inp.rst = false ∧ inp.abort = true)) ∧
      (∃ inp ∈ (s.ports :: s.host).take
          (symbolUnits s.params s.regs.currentSym * s.params.unitCycles), inp.abort = true) := by
  decide
theorem witness_NopCompletes :
    (State.resetWith p2).regs.st.isIdle = true ∧ (sendAt p2 1#6 0#2 true 1 0).regs.st = .send := by
  decide
theorem witness_GapEnd_again :
    let s := gapAt p2 1 1 1
    s.regs.st = .gap ∧ s.regs.phaseEnds s.params ∧
      ¬(s.params.abortAtBoundary = true ∧ s.regs.abortPending = true) ∧ 0 < s.regs.repLeft := by decide
theorem witness_GapEnd_done :
    let s := gapAt p2b 0 1 1
    s.regs.st = .gap ∧ s.regs.phaseEnds s.params ∧
      ¬(s.params.abortAtBoundary = true ∧ s.regs.abortPending = true) ∧ s.regs.repLeft = 0 := by decide
/-- Both ends of the repeat count, 1 and `2^REP_W - 1`. -/
theorem witness_StartAccepted : ∀ r ∈ [1, 255],
    let s := startAt p2 r
    s.regs.st.isIdle = true ∧ s.ports.identity < 2 ^ 26 ∧ s.ports.group < 2 ∧ s.ports.state < 2 ∧
      s.ports.unit < 16 ∧ s.ports.repeatCount < 2 ^ s.params.repW ∧ s.ports.repeatCount ≠ 0 := by
  decide
theorem witness_StartRejected :
    let s := startAt p2 0
    s.regs.st.isIdle = true ∧ s.ports.operandsOk = true ∧ s.ports.repeatCount = 0 := by decide
theorem witness_StartWhileBusyIgnored :
    let s := (gapAt p2 0 1 1).withPorts (startPorts 7)
    (s.regs.st = .send ∨ s.regs.st = .gap) ∧ s.ports.operandsOk = true ∧
      s.ports.repeatOk s.params = true := by decide
theorem witness_AbortWhileIdle :
    ((State.resetWith p2).withRegs { Regs.reset with st := .unused }).regs.st.isIdle = true := by decide
theorem witness_AbortImmediate :
    let s := sendAt p2 0#6 0#2 true 1 0
    (s.regs.st = .send ∨ s.regs.st = .gap) ∧ s.params.abortAtBoundary = false := by decide
theorem witness_AbortAtBoundary_gap :
    (gapAt p2b 0 60 0).params.abortAtBoundary = true ∧ (gapAt p2b 0 60 0).regs.st = .gap := by decide
theorem witness_AbortAtBoundary_pending :
    let s := pending (sendAt p2b 0#6 1#2 false 9 0)
    s.params.abortAtBoundary = true ∧ s.regs.abortPending = true ∧ s.regs.st = .send ∧
      s.regs.tick < s.params.unitCycles - 1 := by decide
theorem witness_AbortAtBoundary_tick :
    let s := sendAt p2b 0#6 1#2 false 9 0
    s.params.abortAtBoundary = true ∧ s.regs.st = .send ∧ s.regs.tick < s.params.unitCycles - 1 := by
  decide
theorem witness_AbortAtBoundary_unit :
    let s := sendAt p2b 0#6 1#2 false 2 1
    s.params.abortAtBoundary = true ∧ s.regs.st = .send ∧ s.params.unitCycles - 1 ≤ s.regs.tick ∧
      1 < s.regs.unitsLeft := by decide
theorem witness_AbortAtBoundary_inside :
    let s := sendAt p2b 1#6 2#2 true 1 1
    s.params.abortAtBoundary = true ∧ s.regs.st = .send ∧ s.regs.phaseEnds s.params ∧
      nextPhase s.params s.regs.currentSym s.regs.symIdx s.regs.phase = .phase s.regs.symIdx 3#2 := by
  decide
theorem witness_AbortAtBoundary_boundary :
    let s := sendAt p2b 33#6 0#2 true 1 1
    s.params.abortAtBoundary = true ∧ s.regs.st = .send ∧ s.regs.phaseEnds s.params ∧
      ∀ q : PhaseIdx, nextPhase s.params s.regs.currentSym s.regs.symIdx s.regs.phase ≠
        .phase s.regs.symIdx q := by decide
theorem witness_StepRunsDecodedInstruction :
    (startAt p2 1).params.wf = true ∧ fetchWord (startAt p2 1) = some (.ctrl 0b001#3) := by decide
theorem witness_FetchedInstruction_encode :
    let s := (startAt p2 1).withPorts { startPorts 1 with clk := false }
    s.ports.clk = false ∧ s.ports.operandsOk = true := by decide
theorem witness_FetchedInstruction_reset :
    let s := (startAt p2 1).withPorts { startPorts 1 with rst := true }
    s.ports.clk = true ∧ s.ports.rst = true := by decide
theorem witness_FetchedInstruction_abort :
    let s := (startAt p2 1).withPorts { startPorts 1 with abort := true }
    s.ports.clk = true ∧ s.ports.rst = false ∧ s.ports.abort = true := by decide
theorem witness_FetchedInstruction_start :
    let s := startAt p2 1
    s.ports.clk = true ∧ s.ports.rst = false ∧ s.ports.abort = false ∧ s.ports.start = true := by decide
theorem witness_FetchedInstruction_symbol :
    let s := sendAt p2 0#6 0#2 true 1 0
    s.ports.clk = true ∧ s.ports.rst = false ∧ s.ports.abort = false ∧ s.ports.start = false ∧
      s.regs.st = .send := by decide
theorem witness_StepImplementsR151 :
    let s := startAt p2 1
    s.params.wf = true ∧ s.ports.clk = true ∧
      (s.ports.start = true → s.ports.operandsOk = true ∧ s.ports.repeatOk s.params = true) := by
  decide
theorem witness_EveryStepCompletes :
    (startAt p2 1).params.wf = true ∧ (startAt p2 1).ports.operandsOk = true ∧
      (startAt p2 1).ports.repeatOk p2 = true := by decide
theorem witness_NoEdgeNoRegisterChange :
    let s := (startAt p2 1).withPorts { startPorts 1 with clk := false, rst := true }
    s.ports.clk = false ∧ step s = .next s.nextInputs := ⟨by decide, by rfl⟩
theorem witness_SynchronousReset_edge :
    let s := (sendAt p2 0#6 0#2 true 1 0).withPorts { Inputs.none with rst := true }
    s.params.wf = true ∧ s.ports.clk = true ∧ s.ports.rst = true := by decide
theorem witness_SynchronousReset_between :
    let s := (sendAt p2 0#6 0#2 true 1 0).withPorts { Inputs.none with clk := false, rst := true }
    s.params.wf = true ∧ s.ports.clk = false ∧ s.ports.rst = true ∧ s.ports.operandsOk = true := by
  decide
/-- RESET at two edges, then a START. -/
theorem witness_ResetHeld :
    let s := { sendAt p2 0#6 0#2 true 1 0 with
      ports := { Inputs.none with rst := true }
      host := [{ startPorts 1 with rst := true }, startPorts 1] }
    s.params.wf = true ∧ 1 ≤ s.host.length ∧ s.ports.clk = true ∧ s.ports.rst = true ∧
      (∀ inp ∈ s.host.take 1, inp.clk = true ∧ inp.rst = true) ∧
      s.host[1]? = some (startPorts 1) ∧ (startPorts 1).clk = true ∧ (startPorts 1).rst = false ∧
      (startPorts 1).operandsOk = true ∧ (startPorts 1).repeatOk s.params = true := by decide

/-- The step of V20's START goes on: the next state it names, for the statements about every step. -/
def afterStart : State :=
  { startAt p2 1 with
    regs := ⟨.send, f1, 0, 0, 1, true, .none, 0#6, 0#2, false⟩
    ports := Inputs.none
    host := [] }

theorem witness_step : step (startAt p2 1) = .next afterStart := by rfl
theorem witness_StepKeepsInvariant : (startAt p2 1).Inv ∧ step (startAt p2 1) = .next afterStart :=
  ⟨by decide, witness_step⟩
theorem witness_ResetSatisfiesInvariant :
    ({ unitCycles := 1, longUnits := 2, startLowUnits := 1, gapUnits := 1, repW := 1,
       abortAtBoundary := true } : Params).wf = true := by decide
theorem witness_StepKeepsCounterWidths :
    (startAt p2 1).params.wf = true ∧ (startAt p2 1).regs.fits (startAt p2 1).params ∧
      step (startAt p2 1) = .next afterStart := ⟨by decide, by decide, witness_step⟩
theorem witness_Transmission :
    (startAt p2 255).accepts ∧
      ∀ inp ∈ (startAt p2 255).host.take
        ((startAt p2 255).ports.repeatCount * (startAt p2 255).params.attemptCycles),
        inp.undisturbed (startAt p2 255).params := by decide
/-- The ABORT in the first cycle of the high pulse of `B`, and one late record. -/
theorem witness_AbortedWaveform :
    let cut := { Inputs.none with abort := true }
    let s := { startAt p2 1 with host := [cut, Inputs.none] }
    s.accepts ∧ s.params.abortAtBoundary = false ∧
      1 ≤ s.ports.repeatCount * s.params.attemptCycles ∧ s.host[1 - 1]? = some cut ∧
      cut.clk = true ∧ cut.rst = false ∧ cut.abort = true ∧
      (∀ late ∈ (s.host.drop 1).take 1, late.clk = true ∧ late.start = false) := by decide
theorem witness_SymbolStartTimes :
    (startAt p2 255).accepts ∧ 254 < (startAt p2 255).ports.repeatCount ∧ 33 ≤ 33 ∧
      ∀ inp ∈ (startAt p2 255).host.take
        ((startAt p2 255).ports.repeatCount * (startAt p2 255).params.attemptCycles),
        inp.undisturbed (startAt p2 255).params := by decide
theorem witness_FrameWrittenOnlyByStartOrReset : step (startAt p2 1) = .next afterStart := witness_step
theorem witness_StatusChangesOnlyAtEvents : step (startAt p2 1) = .next afterStart := witness_step
/-- The completing step. -/
theorem witness_LeavingTransmissionForcesIdle :
    let s := gapAt p2 0 1 1
    let t : State := { s with
      regs := ⟨.idle, f1, 0, 0, 0, false, .done, 0#6, 0#2, false⟩, ports := Inputs.none, host := [] }
    s.busy = true ∧ step s = .next t ∧ t.busy = false := ⟨by decide, by rfl, by decide⟩
theorem witness_LeavingTransmission_by_RESET :
    let s := (gapAt p2 0 60 0).withPorts { Inputs.none with rst := true }
    let t : State := { s with regs := Regs.reset, ports := Inputs.none, host := [] }
    s.busy = true ∧ step s = .next t ∧ t.busy = false := ⟨by decide, by rfl, by decide⟩
theorem witness_LineLowAtRest :
    let s := gapAt p2 0 1 1
    let t : State := { s with
      regs := ⟨.idle, f1, 0, 0, 0, false, .done, 0#6, 0#2, false⟩, ports := Inputs.none, host := [] }
    s.Inv ∧ steps 1 s = some t ∧ t.busy = false := ⟨by decide, by rfl, by decide⟩
/-- A START with a repeat count of 0 (REJECTED) and another with other operands. -/
theorem witness_OperandsReadOnlyAtAcceptedStart :
    let s := startAt p2 0
    let s' := s.withPorts { s.ports with identity := 5, unit := 3 }
    let t : State := { s with
      regs := { Regs.reset with status := .rejected }, ports := Inputs.none, host := [] }
    ¬s.accepts ∧ ¬s'.accepts ∧ step s = .next t ∧ step s' = .next t :=
  ⟨by decide, by decide, by rfl, by rfl⟩
theorem witness_AbortBeatsCompletion :
    let s := (gapAt p2b 0 1 1).withPorts { Inputs.none with abort := true }
    s.params.wf = true ∧ s.ports.clk = true ∧ s.ports.rst = false ∧ s.ports.abort = true ∧
      s.regs.st = .gap ∧ s.regs.repLeft = 0 ∧ s.regs.phaseEnds s.params := by decide
theorem witness_StartHeldRestarts :
    let s := { gapAt p2 0 1 1 with ports := startPorts 1, host := [startPorts 1] }
    s.params.wf = true ∧ s.regs.st = .gap ∧ s.regs.repLeft = 0 ∧ s.regs.phaseEnds s.params ∧
      ¬(s.params.abortAtBoundary = true ∧ s.regs.abortPending = true) ∧
      s.ports.undisturbed s.params ∧ s.host = [startPorts 1] ∧
      (startPorts 1).undisturbed s.params ∧ (startPorts 1).start = true ∧
      (startPorts 1).repeatCount ≠ 0 := by decide
theorem witness_HostInputsFollow_empty :
    (State.resetWith p2).host = [] ∧
      step (State.resetWith p2) = .next (State.resetWith p2) := ⟨by rfl, by rfl⟩
theorem witness_HostInputsFollow_record :
    (startAt p2 1).host = [Inputs.none] ∧ step (startAt p2 1) = .next afterStart :=
  ⟨by rfl, witness_step⟩
theorem witness_InstanceNeverChanges : step (startAt p2 1) = .next afterStart := witness_step
theorem witness_IllFormedInstanceRefused :
    ({ p2 with longUnits := 1 } : Params).longUnits < 2 := by decide
theorem witness_Clog2IsLeast : (61 : Nat) ≤ 2 ^ 6 := by decide
/-- The example program's lines, with a second line for edge 5. -/
def programLines : List ProgramLine := [⟨0, .start 0 0 1 0 1⟩, ⟨5, .abort⟩, ⟨5, .reset⟩]
theorem witness_Program_first_line :
    0 < 6 ∧ programLines = [] ++ ⟨0 + 0, .start 0 0 1 0 1⟩ :: [⟨5, .abort⟩, ⟨5, .reset⟩] := by decide
theorem witness_Program_first_of_two_lines :
    5 < 6 ∧ programLines = [⟨0, .start 0 0 1 0 1⟩] ++ ⟨0 + 5, .abort⟩ :: [⟨5, .reset⟩] ∧
      ∀ l ∈ [(⟨0, .start 0 0 1 0 1⟩ : ProgramLine)], l.edge ≠ 0 + 5 := by decide
theorem witness_Program_no_line : 4 < 6 ∧ ∀ l ∈ programLines, l.edge ≠ 0 + 4 := by decide
theorem test_program_edge_5 : ((expandFrom programLines Inputs.none 6 0)[5]?) =
    some { startPorts 1 with start := false, abort := true } := by decide

end Sys2Proof.Tests
end

/-! ### Scope: the parameters, `clog2` and the step (spec/00_scope.md rules R7 to R10) -/

namespace Sys2Proof

/-- The constraint column of rule R7, as a proposition. -/
theorem Params.wf_iff (p : Params) :
    p.wf = true ↔ 1 ≤ p.unitCycles ∧ 2 ≤ p.longUnits ∧ 1 ≤ p.startLowUnits ∧ 1 ≤ p.gapUnits ∧
      1 ≤ p.repW := by
  simp [Params.wf, and_assoc]

/-- The search of `clog2` never passes a width that reaches `x`: it stops there at the latest. -/
theorem clog2From_le (x fuel w v : Nat) (hw : w ≤ v) (hv : x ≤ 2 ^ v) :
    clog2From x fuel w ≤ v := by
  induction fuel generalizing w with
  | zero => exact hw
  | succ fuel ih =>
    by_cases hx : x ≤ 2 ^ w
    · simpa [clog2From, hx] using hw
    · have hne : w ≠ v := by rintro rfl; exact hx hv
      simpa [clog2From, hx] using ih (w + 1) (by omega)

end Sys2Proof

namespace Sys2Proof.Machine

/-- Parameters that rule R7 does not allow: no step is taken. -/
theorem step_illFormed (s : State) (h : ¬s.params.wf = true) :
    step s = .refused .illFormedInstance := if_neg h

/-- Settles O38: without an edge the only step is ENCODE's, which leaves the registers alone. -/
theorem noEdgeNoRegisterChange : Obligations.NoEdgeNoRegisterChange := by
  intro s t hclk hstep
  obtain ⟨-, ⟨-, -, rfl⟩ | ⟨hedge, -, -⟩⟩ := step_next s t hstep
  · exact s.nextInputs_regs
  · simp [hclk] at hedge

/-- Settles O56: neither the edge's new registers nor the host's next inputs touch the parameters. -/
theorem instanceNeverChanges : Obligations.InstanceNeverChanges := by
  intro s t hstep
  obtain ⟨-, ⟨-, -, rfl⟩ | ⟨-, -, rfl⟩⟩ := step_next s t hstep
  · exact s.nextInputs_params
  · rw [State.nextInputs_params, State.withRegs_params]

/-- Settles O59: the search from 0 has fuel `x`, enough since `x < 2 ^ x`, and it stops no later than
at any width that reaches `x`. -/
theorem clog2IsLeast : Obligations.Clog2IsLeast := fun x =>
  ⟨clog2From_reaches x x 0 (by rw [Nat.zero_add]; exact Nat.lt_two_pow_self.le),
    fun w hw => clog2From_le x x 0 w w.zero_le hw⟩

/-- Settles O34, by the three answers of `exec`. -/
theorem stepRunsDecodedInstruction : Obligations.StepRunsDecodedInstruction := by
  intro s w hwf hfetch
  cases hexec : exec (decode w) s with
  | next t => simp [step, hwf, hfetch, hexec]
  | fault f => simp [step, hwf, hfetch, hexec]
  | refused r => simp [step, hwf, hfetch, hexec]

/-- Settles O57: each of the five cases breaks a constraint of rule R7. -/
theorem illFormedInstanceRefused : Obligations.IllFormedInstanceRefused := by
  intro s hbad
  refine step_illFormed s fun hwf => ?_
  obtain ⟨hunit, hlong, hstart, hgap, hrep⟩ := s.params.wf_iff.1 hwf
  omega

/-- Settles O58: rule R8's equations are the definitions, and the defaults evaluate. -/
theorem derivedLengths : Obligations.DerivedLengths :=
  ⟨fun _ => ⟨rfl, rfl, rfl, rfl⟩, fun _ => ⟨rfl, rfl, rfl⟩⟩

end Sys2Proof.Machine

/-! ### State: the registers a step leaves, and the invariants of spec/10_state.md rule R36 -/

namespace Sys2Proof.Machine

/-- The registers after a step: as before without an edge, `edgeRegs` at one. Where a START is decoded,
its operands and its count fit the ports. -/
theorem step_regs {s t : State} (h : step s = .next t) :
    s.params.wf = true ∧ t.params = s.params ∧
    ((s.ports.clk = false ∧ t.regs = s.regs) ∨
     (s.ports.clk = true ∧
      (s.ports.rst = false → s.ports.abort = false → s.ports.start = true →
        s.ports.operandsOk = true ∧ s.ports.repeatOk s.params = true) ∧
      t.regs = edgeRegs s.params s.regs s.ports)) := by
  have hparams := instanceNeverChanges s t h
  obtain ⟨hwf, ⟨hclk, -, rfl⟩ | ⟨hclk, hfit, rfl⟩⟩ := step_next s t h
  · exact ⟨hwf, hparams, .inl ⟨hclk, s.nextInputs_regs⟩⟩
  · exact ⟨hwf, hparams, .inr ⟨hclk, hfit, by rw [State.nextInputs_regs, State.withRegs_regs]⟩⟩

/-- The port `repeat_count` holds a record's count exactly below `2 ^ REP_W` (rule R20). -/
theorem Inputs.repeatOk_iff (p : Params) (inp : Inputs) :
    inp.repeatOk p = true ↔ inp.repeatCount < 2 ^ p.repW := by
  simp [Inputs.repeatOk]

/-- The frame of the payload on the ports is ENC of the operands (rule R100). -/
theorem frameOf_payload (inp : Inputs) :
    frameOf inp.payload = enc (BitVec.ofNat 26 inp.identity) (BitVec.ofNat 1 inp.group)
      (BitVec.ofNat 1 inp.state) (BitVec.ofNat 4 inp.unit) := rfl

/-- `enc_frame` reads the operand ports and nothing else (rule R22). -/
theorem State.encFrame_of_operandsOk (s : State) (h : s.ports.operandsOk = true) :
    s.encFrame = some (frameOf s.ports.payload) := if_pos h

theorem operandsFit_iff (identity group state unit : Nat) :
    operandsFit identity group state unit = true ↔
      identity < 2 ^ 26 ∧ group < 2 ∧ state < 2 ∧ unit < 16 := by
  simp [operandsFit, and_assoc]

/-- ENCODE of operands that fit drives the operand ports with them (rules R100 and R101). -/
theorem execEncode_fit (identity group state unit : Nat) (s : State)
    (h : operandsFit identity group state unit = true) :
    execEncode identity group state unit s =
      .next (s.withPorts (s.ports.withOperands identity group state unit)) := if_pos h

/-! The invariants of rule R36, one sequencer state at a time. -/

theorem Regs.inv_idle {p : Params} {r : Regs} (hwf : p.wf = true) (hst : r.st = .idle) :
    r.Inv p ↔ r.idleOk := by
  obtain ⟨-, -, -, -, hrepW⟩ := p.wf_iff.1 hwf
  have hroom : 2 ^ 1 ≤ 2 ^ p.repW := Nat.pow_le_pow_right (by omega) hrepW
  constructor
  · rintro ⟨-, hidle, -⟩
    exact hidle hst
  · intro hidle
    have ⟨_, _, _, _, _, hrep, hpending⟩ := hidle
    exact ⟨by simp [hst], fun _ => hidle, by simp [hst], by simp [hst], fun _ => hst, by omega,
      fun _ => hpending⟩

theorem Regs.inv_send {p : Params} {r : Regs} (hst : r.st = .send) :
    r.Inv p ↔ r.sendOk p ∧ r.status = .none ∧ r.repLeft + 2 ≤ 2 ^ p.repW ∧
      (p.abortAtBoundary = false → r.abortPending = false) := by
  simp [Regs.Inv, hst]

theorem Regs.inv_gap {p : Params} {r : Regs} (hst : r.st = .gap) :
    r.Inv p ↔ r.gapOk p ∧ r.status = .none ∧ r.repLeft + 2 ≤ 2 ^ p.repW ∧
      (p.abortAtBoundary = false → r.abortPending = false) := by
  simp [Regs.Inv, hst]

theorem Regs.reset_inv {p : Params} (hwf : p.wf = true) : Regs.reset.Inv p :=
  (Regs.inv_idle hwf rfl).2 ⟨rfl, rfl, rfl, rfl, rfl, rfl, rfl⟩

theorem Regs.ended_inv {p : Params} (hwf : p.wf = true) (r : Regs) (code : Status) :
    (r.ended code).Inv p :=
  (Regs.inv_idle hwf rfl).2 ⟨rfl, rfl, rfl, rfl, rfl, rfl, rfl⟩

/-- With the invariants the idle states are IDLE alone: no step writes the code `11` (rule R26). -/
theorem Regs.Inv.st_eq_idle {p : Params} {r : Regs} (h : r.Inv p) (hidle : r.st.isIdle = true) :
    r.st = .idle := by
  obtain ⟨hunused, -⟩ := h
  exact ((SeqState.isIdle_iff _).1 hidle).resolve_right hunused

/-! The parts of a busy edge keep them. -/

/-- The first phase of any symbol of a marked frame is as rule R36 has SEND. -/
theorem Regs.sendOk_first {p : Params} (hwf : p.wf = true) {r : Regs} {k : SymIdx}
    (hk : k ≤ 33#6) (hmarkers : r.markersOk) : (r.atPhase k 0#2 true 1).sendOk p := by
  obtain ⟨hunit, -⟩ := p.wf_iff.1 hwf
  have hnph : ∀ c, 0 < nph p c := fun c => by cases c <;> exact Nat.succ_pos _
  exact ⟨hk, hnph _, by simp, by simp, le_rfl, by simp, hunit, hmarkers⟩

/-- The stop marker stands at position 33. -/
theorem Regs.currentSym_last {r : Regs} (hk : r.symIdx = 33#6) (hmarkers : r.markersOk) :
    r.currentSym = .E := by
  obtain ⟨-, hstop⟩ := hmarkers
  have hcode : codeAt r.frame 33#6 = r.frame.extractLsb' 66 2 := rfl
  rw [Regs.currentSym, symAt, hk, hcode, hstop]
  rfl

/-- The only timed phase of `E` is its first (rule R122). -/
theorem timed_phase_E {p : Params} {q : PhaseIdx} (hq : q.toNat < nph p .E)
    (hunits : 1 ≤ (lut p .E q.toNat).units) : q = 0#2 := by
  have hne : q.toNat ≠ 1 := fun h1 => by simp [h1] at hunits
  have hlt : q.toNat < 2 := hq
  exact BitVec.eq_of_toNat_eq (show q.toNat = 0 by omega)

/-- TIMER_STEP inside a phase counts within the ranges of rule R36. -/
theorem Regs.Inv.counting {p : Params} {r : Regs} (h : r.Inv p) (hbusy : r.st = .send ∨ r.st = .gap)
    {tick units : Nat} {req : Bool} (htick : tick < p.unitCycles)
    (hpos : 1 ≤ r.unitsLeft → 1 ≤ units) (hle : units ≤ r.unitsLeft)
    (hreq : p.abortAtBoundary = false → req = false) :
    { r with tick := tick, unitsLeft := units, abortPending := req }.Inv p := by
  rcases hbusy with hst | hst
  · obtain ⟨⟨hk, hq, htimed, hline, hone, hmost, -, hmarkers⟩, hstatus, hrep, -⟩ :=
      (Regs.inv_send hst).1 h
    exact Iff.mpr (Regs.inv_send hst)
      ⟨⟨hk, hq, htimed, hline, hpos hone, hle.trans hmost, htick, hmarkers⟩, hstatus, hrep, hreq⟩
  · obtain ⟨⟨hline, hone, hmost, -, hk, hq, hmarkers⟩, hstatus, hrep, -⟩ := (Regs.inv_gap hst).1 h
    exact Iff.mpr (Regs.inv_gap hst)
      ⟨⟨hline, hpos hone, hle.trans hmost, htick, hk, hq, hmarkers⟩, hstatus, hrep, hreq⟩

/-- A busy edge keeps the invariants, outcome by outcome of `advance_cases`. -/
theorem advance_keeps_inv {p : Params} (hwf : p.wf = true) {r : Regs} {req : Bool} (h : r.Inv p)
    (hbusy : r.st = .send ∨ r.st = .gap) (hreq : p.abortAtBoundary = false → req = false) :
    (advance p r r.currentSym req).Inv p := by
  obtain ⟨hunit, -, -, hgapUnits, -⟩ := p.wf_iff.1 hwf
  rcases advance_cases p r r.currentSym req hbusy with ⟨-, -, e⟩ | ⟨htick, e⟩ | ⟨-, hunits, e⟩ |
    ⟨hst, -, q, hnext, e⟩ | ⟨hst, -, -, e⟩ | ⟨-, -, -, e⟩ | ⟨hst, -, hrep, e⟩ <;> rw [e]
  · exact r.ended_inv hwf .aborted
  · exact h.counting hbusy (by omega) id le_rfl hreq
  · exact h.counting hbusy hunit (by omega) (by omega) hreq
  · -- the next timed phase of the same symbol
    obtain ⟨⟨hk, -, -, -, -, -, -, hmarkers⟩, hstatus, hrep, -⟩ := (Regs.inv_send hst).1 h
    obtain ⟨-, hq, htimed⟩ := nextPhase_same p _ _ _ _ hnext
    exact Iff.mpr (Regs.inv_send hst)
      ⟨⟨hk, hq, htimed, rfl, htimed, le_rfl, hunit, hmarkers⟩, hstatus, hrep, hreq⟩
  · obtain ⟨⟨hk, hq, htimed, -, -, -, -, hmarkers⟩, hstatus, hrep, hpending⟩ :=
      (Regs.inv_send hst).1 h
    split
    · -- the next symbol
      exact Iff.mpr (Regs.inv_send hst)
        ⟨Regs.sendOk_first hwf (by bv_omega) hmarkers, hstatus, hrep, hpending⟩
    · -- the gap, which only the stop marker reaches
      have hlast : r.symIdx = 33#6 := by bv_omega
      rw [Regs.currentSym_last hlast hmarkers] at hq htimed
      exact Iff.mpr (Regs.inv_gap rfl)
        ⟨⟨rfl, hgapUnits, le_rfl, hunit, hlast, timed_phase_E hq htimed, hmarkers⟩, hstatus, hrep,
          hpending⟩
  · exact r.ended_inv hwf .done
  · -- the next attempt, from the same frame
    obtain ⟨⟨-, -, -, -, -, -, hmarkers⟩, hstatus, hroom, hpending⟩ := (Regs.inv_gap hst).1 h
    exact Iff.mpr (Regs.inv_send rfl)
      ⟨Regs.sendOk_first hwf (by decide) hmarkers, hstatus, by simp only [Regs.atPhase_repLeft]; omega,
        hpending⟩

/-- The frame of a payload has its markers in place (rule R75). -/
theorem frameOf_markers (P : Payload) :
    (frameOf P).extractLsb' 0 2 = 0b10#2 ∧ (frameOf P).extractLsb' 66 2 = 0b11#2 := by
  have hB : symAt (frameOf P) 0#6 = .B := symAt_frameOf P 0#6 (by decide)
  have hE : symAt (frameOf P) 33#6 = .E := by
    rw [symAt_frameOf P 33#6 (by decide)]
    simp [frameSymbols, List.getElem_append_right]
  exact ⟨(code_ofCode (codeAt (frameOf P) 0#6)).symm.trans (congrArg Sym.code hB),
    (code_ofCode (codeAt (frameOf P) 33#6)).symm.trans (congrArg Sym.code hE)⟩

/-- An accepted START of a count the port can hold begins a SEND with the invariants. -/
theorem acceptStart_inv {p : Params} (hwf : p.wf = true) (r : Regs) {inp : Inputs}
    (hcount : inp.repeatCount ≠ 0) (hfit : inp.repeatOk p = true) : (acceptStart p r inp).Inv p := by
  have hroom := (inp.repeatOk_iff p).1 hfit
  rw [acceptStart_eq]
  exact Iff.mpr (Regs.inv_send rfl)
    ⟨Regs.sendOk_first (r := { r with frame := frameOf inp.payload }) hwf (by decide)
      (frameOf_markers inp.payload), rfl, by dsimp only; omega, fun _ => rfl⟩

/-- Every edge keeps the invariants, command by command of `edgeRegs_cases`. -/
theorem edgeRegs_keeps_inv {p : Params} (hwf : p.wf = true) {r : Regs} {inp : Inputs} (h : r.Inv p)
    (hfit : inp.rst = false → inp.abort = false → inp.start = true →
      inp.operandsOk = true ∧ inp.repeatOk p = true) : (edgeRegs p r inp).Inv p := by
  rcases edgeRegs_cases p r inp with ⟨-, e⟩ | ⟨-, -, -, e⟩ | ⟨-, hidle, -, -, -, e⟩ |
    ⟨hrst, -, habort, hstart, hcount, e⟩ | ⟨-, -, -, -, e⟩ | ⟨-, hbusy, hmode, e⟩ <;> rw [e]
  · exact Regs.reset_inv hwf
  · exact h
  · have hst := h.st_eq_idle hidle
    exact (Regs.inv_idle (r := { r with status := .rejected }) hwf hst).2 ((Regs.inv_idle hwf hst).1 h)
  · exact acceptStart_inv hwf r hcount (hfit hrst habort hstart).2
  · exact r.ended_inv hwf .aborted
  · have ⟨_, _, _, _, _, _, hpending⟩ := h
    refine advance_keeps_inv hwf h ((SeqState.not_isIdle_iff _).1 hbusy) fun himm => ?_
    have habort : inp.abort = false := by
      by_contra hab
      simp [hmode (by simpa using hab)] at himm
    simp [hpending himm, habort]

/-- Settles O41: a moment without an edge changes no register, and every edge keeps the invariants. -/
theorem stepKeepsInvariant : Obligations.StepKeepsInvariant := by
  rintro s t ⟨-, hinv⟩ hstep
  obtain ⟨hwf, hparams, hregs⟩ := step_regs hstep
  rw [State.Inv, hparams]
  rcases hregs with ⟨-, hregs⟩ | ⟨-, hfit, hregs⟩ <;> rw [hregs]
  · exact ⟨hwf, hinv⟩
  · exact ⟨hwf, edgeRegs_keeps_inv hwf hinv hfit⟩

/-- Settles O42: `UNIT_CYCLES` of `State.reset` is a successor, so its parameters are within rule R7. -/
theorem resetSatisfiesInvariant : Obligations.ResetSatisfiesInvariant := by
  have hreset : ∀ p : Params, p.wf = true → (State.resetWith p).Inv := fun p hwf =>
    ⟨hwf, Regs.reset_inv hwf⟩
  refine ⟨hreset, hreset Config.params ?_⟩
  simp [Params.wf_iff, Config.params, Params.defaults]

/-- An edge that starts a transmission, when its operands fit, is an accepted START (rule R154). -/
theorem State.accepts_of_start {s : State} (hwf : s.params.wf = true) (hclk : s.ports.clk = true)
    (hidle : s.regs.st.isIdle = true) (hrst : s.ports.rst = false) (habort : s.ports.abort = false)
    (hstart : s.ports.start = true) (hcount : s.ports.repeatCount ≠ 0)
    (hfit : s.ports.operandsOk = true ∧ s.ports.repeatOk s.params = true) : s.accepts :=
  ⟨hwf, hidle, hclk, hrst, habort, hstart, hfit.1, hfit.2, Nat.one_le_iff_ne_zero.2 hcount⟩

/-- A busy edge only reads the frame (rule R27). -/
theorem advance_frame {p : Params} {r : Regs} (c : Sym) (req : Bool)
    (hbusy : r.st = .send ∨ r.st = .gap) : (advance p r c req).frame = r.frame := by
  rcases advance_cases p r c req hbusy with ⟨-, -, e⟩ | ⟨-, e⟩ | ⟨-, -, e⟩ | ⟨-, -, q, -, e⟩ |
    ⟨-, -, -, e⟩ | ⟨-, -, -, e⟩ | ⟨-, -, -, e⟩
  · rw [e, Regs.ended_frame]
  · rw [e]
  · rw [e]
  · rw [e, Regs.atPhase_frame]
  · rw [e]; split <;> rfl
  · rw [e, Regs.ended_frame]
  · rw [e, Regs.atPhase_frame]

/-- Settles O48: of the outcomes of an edge only RESET and an accepted START write the frame. -/
theorem frameWrittenOnlyByStartOrReset : Obligations.FrameWrittenOnlyByStartOrReset := by
  intro s t hstep
  obtain ⟨hwf, -, ⟨-, hregs⟩ | ⟨hclk, hfit, hregs⟩⟩ := step_regs hstep <;> rw [hregs]
  · exact .inl rfl
  rcases edgeRegs_cases s.params s.regs s.ports with ⟨hrst, e⟩ | ⟨-, -, -, e⟩ |
    ⟨-, -, -, -, -, e⟩ | ⟨hrst, hidle, habort, hstart, hcount, e⟩ | ⟨-, -, -, -, e⟩ |
    ⟨-, hbusy, -, e⟩ <;> rw [e]
  · exact .inr (.inl ⟨hclk, hrst, rfl⟩)
  · exact .inl rfl
  · exact .inl rfl
  · have hacc := State.accepts_of_start hwf hclk hidle hrst habort hstart hcount
      (hfit hrst habort hstart)
    exact .inr (.inr ⟨hacc, by rw [acceptStart_eq, frameOf_payload]⟩)
  · exact .inl rfl
  · exact .inl (advance_frame _ _ ((SeqState.not_isIdle_iff _).1 hbusy))

/-- A busy edge writes the status only where it ends the transmission: ABORTED by a request, DONE by the
phase end of the last gap (rule R196). -/
theorem advance_status {p : Params} {r : Regs} (c : Sym) (req : Bool)
    (hbusy : r.st = .send ∨ r.st = .gap) :
    (advance p r c req).status = r.status ∨
    (req = true ∧ advance p r c req = r.ended .aborted) ∨
    (r.st = .gap ∧ r.repLeft = 0 ∧ r.phaseEnds p ∧ advance p r c req = r.ended .done) := by
  rcases advance_cases p r c req hbusy with ⟨-, hreq, e⟩ | ⟨-, e⟩ | ⟨-, -, e⟩ | ⟨-, -, q, -, e⟩ |
    ⟨-, -, -, e⟩ | ⟨hst, hend, hrep, e⟩ | ⟨-, -, -, e⟩
  · exact .inr (.inl ⟨hreq, e⟩)
  · exact .inl (by rw [e])
  · exact .inl (by rw [e])
  · exact .inl (by rw [e, Regs.atPhase_status])
  · exact .inl (by rw [e]; split <;> rfl)
  · exact .inr (.inr ⟨hst, hrep, hend, e⟩)
  · exact .inl (by rw [e, Regs.atPhase_status])

/-- Settles O49: each outcome of an edge that writes `status` is one of the events. -/
theorem statusChangesOnlyAtEvents : Obligations.StatusChangesOnlyAtEvents := by
  intro s t hstep
  simp only [State.busy_eq]
  obtain ⟨hwf, -, ⟨-, hregs⟩ | ⟨hclk, hfit, hregs⟩⟩ := step_regs hstep <;> rw [hregs]
  · exact .inl rfl
  rcases edgeRegs_cases s.params s.regs s.ports with ⟨hrst, e⟩ | ⟨-, -, -, e⟩ |
    ⟨hrst, hidle, habort, hstart, hcount, e⟩ | ⟨hrst, hidle, habort, hstart, hcount, e⟩ |
    ⟨hrst, hbusy, habort, -, e⟩ | ⟨hrst, hbusy, -, e⟩
  · exact .inr (.inl ⟨hclk, hrst, by rw [e]; rfl⟩)
  · exact .inl (by rw [e])
  · exact .inr (.inr (.inr (.inl ⟨hclk, hrst, habort, hstart, hidle, hcount, by rw [e]⟩)))
  · have hacc := State.accepts_of_start hwf hclk hidle hrst habort hstart hcount
      (hfit hrst habort hstart)
    exact .inr (.inr (.inl ⟨hacc, by rw [e, acceptStart_eq]⟩))
  · exact .inr (.inr (.inr (.inr (.inl
      ⟨hclk, hrst, by rw [hbusy]; rfl, .inl habort, by rw [e]; rfl, by rw [e]; rfl⟩))))
  · rw [e]
    rcases advance_status s.regs.currentSym (s.regs.abortPending || s.ports.abort)
        ((SeqState.not_isIdle_iff _).1 hbusy) with hsame | ⟨hreq, e'⟩ | ⟨hst, hrep, hend, e'⟩
    · exact .inl hsame
    · have hasked : s.ports.abort = true ∨ s.regs.abortPending = true :=
        by simpa [or_comm] using hreq
      exact .inr (.inr (.inr (.inr (.inl
        ⟨hclk, hrst, by rw [hbusy]; rfl, hasked, by rw [e']; rfl, by rw [e']; rfl⟩))))
    · exact .inr (.inr (.inr (.inr (.inr
        ⟨hclk, hrst, hst, hrep, hend, by rw [e']; rfl, by rw [e']; rfl⟩))))

/-- An edge reads, beside the control inputs, only whether the count of a START in IDLE is 0, unless it
accepts that START. -/
theorem edgeRegs_congr (p : Params) (r : Regs) {inp inp' : Inputs} (hrst : inp'.rst = inp.rst)
    (habort : inp'.abort = inp.abort) (hstart : inp'.start = inp.start)
    (hcount : r.st.isIdle = true → inp.rst = false → inp.abort = false → inp.start = true →
      inp.repeatCount = 0 ∧ inp'.repeatCount = 0) : edgeRegs p r inp' = edgeRegs p r inp := by
  unfold edgeRegs
  rw [hrst, habort, hstart]
  split_ifs with h1 h2 h3
  · rfl
  · rfl
  · cases hidle : r.st.isIdle
    · rw [startEdge_busy p r inp hidle, startEdge_busy p r inp' hidle]
    · obtain ⟨h0, h0'⟩ := hcount hidle (by simpa using h1) (by simpa using h2) h3
      simp only [startEdge, hidle, h0, h0', if_true]
  · rfl

/-- A step's START in IDLE that is not accepted has a count of 0: the other ways to miss the acceptance
are refusals. -/
theorem step_unaccepted_start {s t : State} (hstep : step s = .next t) (hna : ¬s.accepts)
    (hclk : s.ports.clk = true) (hidle : s.regs.st.isIdle = true) (hrst : s.ports.rst = false)
    (habort : s.ports.abort = false) (hstart : s.ports.start = true) : s.ports.repeatCount = 0 := by
  obtain ⟨hwf, -, ⟨hclk', -⟩ | ⟨-, hfit, -⟩⟩ := step_regs hstep
  · simp [hclk] at hclk'
  · by_contra hcount
    exact hna (State.accepts_of_start hwf hclk hidle hrst habort hstart hcount
      (hfit hrst habort hstart))

/-- Settles O52: where no START is accepted, both edges have the same control inputs and, if they are a
START in IDLE, both counts are 0. -/
theorem operandsReadOnlyAtAcceptedStart : Obligations.OperandsReadOnlyAtAcceptedStart := by
  intro s t t' identity group state unit repeatCount s' hna hna' hstep hstep'
  have hzero := step_unaccepted_start hstep hna
  have hzero' := step_unaccepted_start hstep' hna'
  obtain ⟨-, -, ⟨hclk, hregs⟩ | ⟨hclk, -, hregs⟩⟩ := step_regs hstep
  · rw [hregs]
    exact noEdgeNoRegisterChange s' t' hclk hstep'
  · obtain ⟨-, -, ⟨hclk', -⟩ | ⟨-, -, hregs'⟩⟩ := step_regs hstep'
    · exact absurd (hclk.symm.trans hclk') (by decide)
    · rw [hregs, hregs']
      exact edgeRegs_congr s.params s.regs rfl rfl rfl fun hidle hrst habort hstart =>
        ⟨hzero hclk hidle hrst habort hstart, hzero' hclk hidle hrst habort hstart⟩

/-- Settles O11: operands that fit are driven on the ports, and `enc_frame` reads them there. -/
theorem encodeCompletes : Obligations.EncodeCompletes := by
  intro identity group state unit s hidentity hgroup hstate hunit
  have hfit : operandsFit identity group state unit = true :=
    (operandsFit_iff _ _ _ _).2 ⟨hidentity, hgroup, hstate, hunit⟩
  exact ⟨_, execEncode_fit identity group state unit s hfit, rfl, State.encFrame_of_operandsOk _ hfit⟩

/-- Settles O12: `withRegs` leaves the operand ports, which are all that `enc_frame` reads. -/
theorem encFrameIgnoresRegisters : Obligations.EncFrameIgnoresRegisters := by
  intro s r hok
  have hports : (s.withRegs r).ports.operandsOk = true := hok
  refine ⟨by rw [s.encFrame_of_operandsOk hok, frameOf_payload], ?_⟩
  rw [s.encFrame_of_operandsOk hok, State.encFrame_of_operandsOk _ hports, State.withRegs_ports]

/-- Settles O33: the registers are `Regs.reset`, whose values rule R38 lists; the outputs read them. -/
theorem resetRegisterValues : Obligations.ResetRegisterValues := ⟨rfl, rfl, rfl, rfl⟩

end Sys2Proof.Machine

/-! ### Encodings: words, frames, texts and host programs (spec/30_encoding.md) -/

namespace Sys2Proof.Machine

/-! Words: the decoder and the encoder, one format at a time. -/

@[simp] theorem encode_instr (c : Sym) : encode c.instr = .sym c.code := by cases c <;> rfl

/-- The encoded operands are the payload on ports that hold them. -/
theorem decode_encode_payload (identity group state unit : Nat)
    (h : operandsFit identity group state unit = true) :
    decode (encode (.encode identity group state unit)) = .encode identity group state unit :=
  decode_payload { Inputs.none with identity, group, state, unit } h

/-- Settles O1: the operands by `decode_payload`, the commands by their CTRL inputs. -/
theorem decodeInvertsEncode : Obligations.DecodeInvertsEncode := by
  intro i hwf
  cases i with
  | encode identity group state unit => exact decode_encode_payload identity group state unit hwf
  | sym0 => rfl
  | sym1 => rfl
  | symB => rfl
  | symE => rfl
  | nop => exact decode_ctrlWord false false false
  | start => exact decode_ctrlWord false false true
  | abort start => exact decode_ctrlWord false true start
  | reset abort start => exact decode_ctrlWord true abort start

/-- A payload is its four fields side by side (rule R71). -/
theorem payloadOf_extract (P : Payload) :
    payloadOf (P.extractLsb' 6 26) (P.extractLsb' 5 1) (P.extractLsb' 4 1) (P.extractLsb' 0 4) = P := by
  rw [payloadOf, BitVec.extractLsb'_append_extractLsb'_eq_extractLsb' (by decide : 6 = 5 + 1),
    BitVec.extractLsb'_append_extractLsb'_eq_extractLsb' (by decide : 5 = 4 + 1),
    BitVec.extractLsb'_append_extractLsb'_eq_extractLsb' (by decide : 4 = 0 + 4)]
  exact BitVec.extractLsb'_eq_self

theorem encode_decode_payload (P : Payload) : encode (decode (.payload P)) = .payload P := by
  simp only [decode, encode, BitVec.ofNat_toNat, BitVec.setWidth_eq, payloadOf_extract]

theorem encode_decode_ctrl : ∀ c : CtrlWord, encode (decode (.ctrl c)) = .ctrl c := by decide

/-- Settles O2, one format at a time. -/
theorem encodeInvertsDecode : Obligations.EncodeInvertsDecode := by
  intro w
  cases w with
  | payload P => exact encode_decode_payload P
  | sym c => rw [decode_sym, encode_instr, code_ofCode]
  | ctrl c => exact encode_decode_ctrl c

/-- Settles O3: the word of the three inputs is `ctrlWord`. -/
theorem controlPatternsDecode : Obligations.ControlPatternsDecode := decode_ctrlWord

/-- Settles O4: each word evaluates. -/
theorem specWordsDecode : Obligations.SpecWordsDecode := by
  unfold Obligations.SpecWordsDecode
  decide

/-- Settles O5: ENCODE's empty mask matches every payload, and the SYM and CTRL words are 4 and 8. -/
theorem opcodeRowsDisjoint : Obligations.OpcodeRowsDisjoint := by
  intro f n hn
  cases f with
  | enc => simp [opcodeTable, OpcodeRow.matchesBits]
  | sym =>
    have hrow : ∀ m < 4, (opcodeTable.filter fun row => row.matchesBits (.sym, m)).length = 1 := by
      decide
    exact hrow n hn
  | ctrl =>
    have hrow : ∀ m < 8, (opcodeTable.filter fun row => row.matchesBits (.ctrl, m)).length = 1 := by
      decide
    exact hrow n hn

/-! The frame, bit by bit (rules R71 and R75). -/

/-- The code of data symbol `k` is `{0, P[32 - k]}` (rules R74 and R75). -/
theorem frameOf_data_code (P : Payload) (k : Nat) (h1 : 1 ≤ k) (h2 : k ≤ 32) :
    (frameOf P).extractLsb' (2 * k) 2 = 0#1 ++ P.extractLsb' (32 - k) 1 := by
  obtain ⟨hhigh, hlow⟩ := frameOf_data_bits P k h1 h2
  refine BitVec.eq_of_getLsbD_eq fun i hi => ?_
  rw [BitVec.getLsbD_append, BitVec.getLsbD_extractLsb']
  interval_cases i
  · simpa using hlow
  · simpa using hhigh

/-- The top nibble: the stop marker and data symbol 32. -/
theorem frameOf_top_nibble (P : Payload) :
    (frameOf P).extractLsb' 64 4 = 0b110#3 ++ P.extractLsb' 0 1 := by
  have hjoin : ∀ b : BitVec 1, 0b11#2 ++ (0#1 ++ b) = 0b110#3 ++ b := by decide
  calc (frameOf P).extractLsb' 64 4
      = (frameOf P).extractLsb' 66 2 ++ (frameOf P).extractLsb' (2 * 32) 2 :=
        (BitVec.extractLsb'_append_extractLsb'_eq_extractLsb' (by decide : 66 = 64 + 2)).symm
    _ = 0b11#2 ++ (0#1 ++ P.extractLsb' 0 1) := by
        rw [(frameOf_markers P).2, frameOf_data_code P 32 (by decide) (by decide)]
    _ = 0b110#3 ++ P.extractLsb' 0 1 := hjoin _

/-- The low nibble: data symbol 1 and the start marker. -/
theorem frameOf_low_nibble (P : Payload) :
    (frameOf P).extractLsb' 0 4 = 0b0#1 ++ P.extractLsb' 31 1 ++ 0b10#2 := by
  calc (frameOf P).extractLsb' 0 4
      = (frameOf P).extractLsb' (2 * 1) 2 ++ (frameOf P).extractLsb' 0 2 :=
        (BitVec.extractLsb'_append_extractLsb'_eq_extractLsb' (by decide : 2 = 0 + 2)).symm
    _ = 0b0#1 ++ P.extractLsb' 31 1 ++ 0b10#2 := by
        rw [(frameOf_markers P).1, frameOf_data_code P 1 (by decide) (by decide)]

/-- Bit 31 of a payload is the identity's top bit, and bit 0 the unit's low bit (rule R71). -/
theorem payloadOf_end_bits (identity : BitVec 26) (group state : BitVec 1) (unit : BitVec 4) :
    (payloadOf identity group state unit).extractLsb' 31 1 = identity.extractLsb' 25 1 ∧
    (payloadOf identity group state unit).extractLsb' 0 1 = unit.extractLsb' 0 1 := by
  constructor
  · rw [payloadOf, BitVec.extractLsb'_append_eq_of_le (by decide),
      BitVec.extractLsb'_append_eq_of_le (by decide), BitVec.extractLsb'_append_eq_of_le (by decide)]
  · rw [payloadOf, BitVec.extractLsb'_append_eq_of_add_le (by decide)]

/-- Settles O6: the payload's fields, the markers, the data bits and the two nibbles. -/
theorem frameLayout : Obligations.FrameLayout := by
  intro identity group state unit P f
  obtain ⟨hidentity, hgroup, hstate, hunit⟩ := payloadOf_fields identity group state unit
  obtain ⟨hfirst, hlast⟩ := frameOf_markers P
  obtain ⟨htop, hlow⟩ := payloadOf_end_bits identity group state unit
  refine ⟨hidentity, hgroup, hstate, hunit, hfirst, hlast, frameOf_data_bits P, ?_, ?_⟩
  · rw [← hlow]
    exact frameOf_top_nibble P
  · rw [← htop]
    exact frameOf_low_nibble P

/-! The text of a frame (rule R76). -/

/-- The symbols read from a payload's frame are those it was packed from. -/
theorem symbolsOf_frameOf (P : Payload) : symbolsOf (frameOf P) = frameSymbols P := by
  refine List.ext_getElem (by simp [symbolsOf]) fun k hk hk' => ?_
  have hlt : k < 34 := by simpa [symbolsOf] using hk
  have hmod : k % 64 = k := Nat.mod_eq_of_lt (by omega)
  have hle : BitVec.ofNat 6 k ≤ 33#6 := by
    rw [BitVec.le_def]; simp [hmod]; omega
  simp [symbolsOf, symAt_frameOf P _ hle, hmod]

theorem textOf_frameOf (P : Payload) : textOf (frameOf P) = (frameSymbols P).map symChar :=
  congrArg (List.map symChar) (symbolsOf_frameOf P)

/-- The characters of the data symbols are the payload in base 2. -/
theorem dataSymbols_chars (P : Payload) : (dataSymbols P).map symChar = binary 32 P.toNat := by
  have hchar (b : Bool) : symChar (dataSym b) = if b then '1' else '0' := by cases b <;> rfl
  simp only [dataSymbols, binary, List.map_map, Function.comp_def, hchar, BitVec.getLsbD]

@[simp] theorem binary_length (n v : Nat) : (binary n v).length = n := by simp [binary]

/-- Digit `i` of a word is its bit `i` from the most-significant end. -/
theorem binary_getElem {n : Nat} (x : BitVec n) (i : Nat) (h : i < (binary n x.toNat).length) :
    (binary n x.toNat)[i] = if x.getMsbD i then '1' else '0' := by
  have hi : i < n := by simpa using h
  simp [binary, BitVec.getMsbD, BitVec.getLsbD, hi]

/-- The digits of two words side by side are the digits of the one, then those of the other. -/
theorem binary_append {m n : Nat} (x : BitVec m) (y : BitVec n) :
    binary (m + n) (x ++ y).toNat = binary m x.toNat ++ binary n y.toNat := by
  refine List.ext_getElem (by simp) fun i hi hi' => ?_
  rw [binary_getElem, BitVec.getMsbD_append]
  by_cases h : m ≤ i
  · rw [if_pos h, List.getElem_append_right (by simpa using h), binary_getElem, binary_length]
  · rw [if_neg h, List.getElem_append_left (by simpa using h), binary_getElem]

/-- Settles O9: the digits of the payload are those of its four fields. -/
theorem frameTextForm : Obligations.FrameTextForm := by
  intro identity group state unit
  have hdigits : binary 32 (payloadOf identity group state unit).toNat =
      binary 26 identity.toNat ++ binary 1 group.toNat ++ binary 1 state.toNat ++
        binary 4 unit.toNat := by
    rw [← binary_append, ← binary_append, ← binary_append]
    rfl
  have htext := textOf_frameOf (payloadOf identity group state unit)
  refine ⟨?_, by rw [enc, htext, List.length_map, frameSymbols_length]⟩
  rw [enc, htext, frameSymbols, List.map_cons, List.map_append, dataSymbols_chars, hdigits]
  simp [symChar]

/-! A frame given as text (rules R81 and R103). -/

/-- The four characters of rule R12, and the symbol each stands for. -/
theorem symOfChar_eq_some_iff (ch : Char) (c : Sym) : symOfChar ch = some c ↔ symChar c = ch := by
  constructor
  · unfold symOfChar
    split_ifs with h0 h1 hB hE <;> rintro ⟨⟩
    · exact h0.symm
    · exact h1.symm
    · exact hB.symm
    · exact hE.symm
  · rintro rfl
    cases c <;> rfl

theorem symChar_mem (c : Sym) : symChar c ∈ ['B', 'E', '0', '1'] := by cases c <;> decide

theorem exists_symChar_eq {ch : Char} (h : ch ∈ ['B', 'E', '0', '1']) : ∃ c, symChar c = ch := by
  simp only [List.mem_cons, List.not_mem_nil, or_false] at h
  obtain rfl | rfl | rfl | rfl := h
  · exact ⟨.B, rfl⟩
  · exact ⟨.E, rfl⟩
  · exact ⟨.zero, rfl⟩
  · exact ⟨.one, rfl⟩

/-- A data symbol is written `0` or `1` (rule R74). -/
theorem symChar_of_isData {c : Sym} (h : isData c = true) : symChar c ∈ ['0', '1'] := by
  cases c with
  | zero => decide
  | one => decide
  | B => exact absurd h (by decide)
  | E => exact absurd h (by decide)

theorem symsOfChars_cons (ch : Char) (rest : List Char) :
    symsOfChars (ch :: rest) = (symOfChar ch).bind fun c => (symsOfChars rest).map (c :: ·) := by
  rw [symsOfChars]
  cases symOfChar ch with
  | none => rfl
  | some c => cases symsOfChars rest <;> rfl

/-- Reading a text is the inverse of writing one. -/
theorem symsOfChars_eq_some_iff (text : List Char) (cs : List Sym) :
    symsOfChars text = some cs ↔ cs.map symChar = text := by
  induction text generalizing cs with
  | nil => simp [symsOfChars, eq_comm]
  | cons ch rest ih =>
    rw [symsOfChars_cons]
    cases cs with
    | nil => simp [Option.bind_eq_some_iff]
    | cons c cs => simp [Option.bind_eq_some_iff, symOfChar_eq_some_iff, ih]

/-- A text of the four characters is the text of some symbols. -/
theorem exists_symbols {text : List Char} (h : ∀ ch ∈ text, ch ∈ ['B', 'E', '0', '1']) :
    ∃ cs : List Sym, cs.map symChar = text := by
  have htext : text ∈ Set.range (List.map symChar) := by
    rw [Set.range_list_map]
    exact fun ch hch => exists_symChar_eq (h ch hch)
  exact htext

/-- A text of symbols passes the character check, so its length and its markers decide. -/
theorem frameOfText_map (cs : List Sym) :
    frameOfText (cs.map symChar) =
      if cs.length ≠ 34 then .error .badLength
      else if markersOk cs then .ok (BitVec.ofNat 68 (packSymbols cs))
      else .error .badMarkers := by
  rw [frameOfText, (symsOfChars_eq_some_iff _ cs).2 rfl]

/-- A text with a foreign character is the text of no symbols (rule R81). -/
theorem frameOfText_foreign {text : List Char} {ch : Char} (hmem : ch ∈ text)
    (hch : ch ∉ ['B', 'E', '0', '1']) : frameOfText text = .error .badCharacter := by
  cases h : symsOfChars text with
  | none => rw [frameOfText, h]
  | some cs =>
    rw [← (symsOfChars_eq_some_iff text cs).1 h, List.mem_map] at hmem
    obtain ⟨c, -, rfl⟩ := hmem
    exact absurd (symChar_mem c) hch

/-- Markers in place are `B` first, `E` last and `0` or `1` between in the text (rule R103). -/
theorem markersOk_text {cs : List Sym} (h : markersOk cs = true) :
    (cs.map symChar).head? = some 'B' ∧ (cs.map symChar).getLast? = some 'E' ∧
      ∀ ch ∈ (cs.map symChar).tail.dropLast, ch ∈ ['0', '1'] := by
  simp only [markersOk, Bool.and_eq_true, decide_eq_true_eq, List.all_eq_true] at h
  obtain ⟨⟨hfirst, hlast⟩, hdata⟩ := h
  refine ⟨by rw [List.head?_map, hfirst]; rfl, by rw [List.getLast?_map, hlast]; rfl, ?_⟩
  rw [← List.map_tail, ← List.map_dropLast, List.forall_mem_map]
  exact fun c hc => symChar_of_isData (hdata c hc)

/-- The markers of an encoded frame are in place (rule R100). -/
theorem frameSymbols_markersOk (P : Payload) : markersOk (frameSymbols P) = true := by
  have hdata (b : Bool) : isData (dataSym b) = true := by cases b <;> rfl
  have hlast : (frameSymbols P).getLast? = some .E := by
    rw [frameSymbols, ← List.cons_append, List.getLast?_concat]
  rw [markersOk, hlast]
  simp [frameSymbols, dataSymbols, hdata]

/-- Settles O10: the characters by `frameOfText_foreign`; a text of the four characters is one of symbols,
whose length and markers decide. -/
theorem textFramesCheckedOrRefused : Obligations.TextFramesCheckedOrRefused := by
  refine ⟨?_, ?_, ?_, fun P => ?_⟩
  · rintro text ⟨ch, hmem, hch⟩
    exact frameOfText_foreign hmem hch
  · intro text hchars hlength
    obtain ⟨cs, rfl⟩ := exists_symbols hchars
    rw [List.length_map] at hlength
    rw [frameOfText_map, if_pos hlength]
  · intro text hchars hlength hbad
    obtain ⟨cs, rfl⟩ := exists_symbols hchars
    rw [List.length_map] at hlength
    rw [frameOfText_map, if_neg (not_not.2 hlength), if_neg]
    intro hok
    obtain ⟨hfirst, hlast, hdata⟩ := markersOk_text hok
    obtain hne | hne | ⟨ch, hmem, hch⟩ := hbad
    · exact hne hfirst
    · exact hne hlast
    · exact hch (hdata ch hmem)
  · rw [textOf_frameOf, frameOfText_map, if_neg (not_not.2 (frameSymbols_length P)),
      if_pos (frameSymbols_markersOk P), frameOf]

/-! The instruction of a step (rules R77 and R34). -/

theorem fetchWord_noEdge {s : State} (hclk : s.ports.clk = false) (hok : s.ports.operandsOk = true) :
    fetchWord s = some (.payload s.ports.payload) := by simp [fetchWord, hclk, hok]

theorem fetchWord_command {s : State} (hclk : s.ports.clk = true) (h : s.ports.ctrl ≠ 0b000#3) :
    fetchWord s = some (.ctrl s.ports.ctrl) := by simp [fetchWord, hclk, h]

theorem fetchWord_noCommand {s : State} (hclk : s.ports.clk = true) (h : s.ports.ctrl = 0b000#3) :
    fetchWord s = some (if s.regs.st = .send then .sym (codeAt s.regs.frame s.regs.symIdx)
      else .ctrl s.ports.ctrl) := by
  by_cases hsend : s.regs.st = .send
  · simp [fetchWord, hclk, h, hsend]
  · simp [fetchWord, hclk, h, hsend]

/-- Settles O35, by the word fetched and the decoding of each format. -/
theorem fetchedInstruction : Obligations.FetchedInstruction := by
  intro s
  refine ⟨fun hclk hok => ?_, fun hclk hrst => ?_, fun hclk hrst habort => ?_,
    fun hclk hrst habort hstart => ?_, fun hclk hrst habort hstart => ?_⟩
  · rw [fetchWord_noEdge hclk hok, Option.map_some, decode_payload _ hok]
  · have hctrl : s.ports.ctrl ≠ 0b000#3 := by simp [ctrl_eq_zero, hrst]
    rw [fetchWord_command hclk hctrl, Option.map_some, decode_ctrl, if_pos hrst]
  · have hctrl : s.ports.ctrl ≠ 0b000#3 := by simp [ctrl_eq_zero, habort]
    simp [fetchWord_command hclk hctrl, decode_ctrl, hrst, habort]
  · have hctrl : s.ports.ctrl ≠ 0b000#3 := by simp [ctrl_eq_zero, hstart]
    simp [fetchWord_command hclk hctrl, decode_ctrl, hrst, habort, hstart]
  · rw [fetchWord_noCommand hclk ((ctrl_eq_zero _).2 ⟨hrst, habort, hstart⟩), Option.map_some]
    by_cases hsend : s.regs.st = .send
    · rw [if_pos hsend, if_pos hsend, decode_sym]
      rfl
    · simp [hsend, decode_ctrl, hrst, habort, hstart]

/-! Host programs (rule R84). -/

/-- The record of edge `n + j` is that edge's command over the ports of the record before it. -/
theorem expandFrom_getElem? (lines : List ProgramLine) (prev : Inputs) {count j : Nat} (n : Nat)
    (h : j < count) :
    ∃ prev', (expandFrom lines prev count n)[j]? = some ((commandAt lines (n + j)).inputs prev') := by
  induction count generalizing prev n j with
  | zero => omega
  | succ count ih =>
    cases j with
    | zero => exact ⟨prev, rfl⟩
    | succ j =>
      obtain ⟨prev', h'⟩ := ih ((commandAt lines n).inputs prev) (n + 1) (Nat.lt_of_succ_lt_succ h)
      exact ⟨prev', by rw [expandFrom, List.getElem?_cons_succ, h', Nat.add_right_comm, Nat.add_assoc]⟩

theorem commandAt_noLine {lines : List ProgramLine} {n : Nat} (h : ∀ l ∈ lines, l.edge ≠ n) :
    commandAt lines n = .nop := by
  have hfind : lines.find? (fun l => l.edge == n) = none := by simpa [List.find?_eq_none] using h
  rw [commandAt, hfind]

/-- The first line for an edge counts. -/
theorem commandAt_firstLine {before : List ProgramLine} (after : List ProgramLine) {n : Nat}
    (command : Command) (h : ∀ l ∈ before, l.edge ≠ n) :
    commandAt (before ++ ⟨n, command⟩ :: after) n = command := by
  have hfind : before.find? (fun l => l.edge == n) = none := by simpa [List.find?_eq_none] using h
  simp [commandAt, hfind]

theorem Command.inputs_clk (command : Command) (prev : Inputs) : (command.inputs prev).clk = true := by
  cases command <;> rfl

/-- Settles O60: a record is its edge's command, and that is the first line's or NOP. -/
theorem programDrivesItsLines : Obligations.ProgramDrivesItsLines := by
  refine ⟨fun lines prev count n j hj => ?_, fun lines s count => rfl⟩
  obtain ⟨prev', hrecord⟩ := expandFrom_getElem? lines prev n hj
  refine ⟨_, hrecord, Command.inputs_clk _ _, fun hnone => ?_,
    fun before after command hlines hfirst => ?_⟩
  · rw [commandAt_noLine hnone]
    exact ⟨rfl, rfl, rfl⟩
  · rw [hlines, commandAt_firstLine after command hfirst]
    cases command with
    | reset => exact ⟨rfl, rfl, rfl⟩
    | abort => exact ⟨rfl, rfl, rfl⟩
    | nop => exact ⟨rfl, rfl, rfl⟩
    | start identity group state unit repeatCount => rfl

end Sys2Proof.Machine


/-! ### Encoder: the law DEC, distinct waveforms and refused operands (spec/40_encoder.md) -/

namespace Sys2Proof.Machine

/-! DEC (rule R105): the payload it reads, bit by bit. -/

/-- The payload of which `dec` gives the four fields. -/
def decPayload (f : Frame) : Payload := BitVec.ofNat 32 (decodedPayload f 32)

theorem dec_eq (f : Frame) :
    dec f = ((decPayload f).extractLsb' 6 26, (decPayload f).extractLsb' 5 1,
      (decPayload f).extractLsb' 4 1, (decPayload f).extractLsb' 0 4) := rfl

/-- The fields that DEC gives are those of `decPayload`, side by side. -/
theorem payloadOf_dec (f : Frame) :
    payloadOf (dec f).1 (dec f).2.1 (dec f).2.2.1 (dec f).2.2.2 = decPayload f :=
  payloadOf_extract (decPayload f)

/-- Of the first `n` data bits the last is the least significant. -/
theorem decodedPayload_testBit (f : Frame) {n i : Nat} (h : i < n) :
    (decodedPayload f n).testBit i = f.getLsbD (2 * (n - i)) := by
  induction n generalizing i with
  | zero => omega
  | succ n ih =>
    rw [decodedPayload, ← Nat.bit_val]
    cases i with
    | zero => rw [Nat.testBit_bit_zero, Nat.sub_zero]
    | succ i => rw [Nat.testBit_bit_succ, ih (Nat.lt_of_succ_lt_succ h), Nat.add_sub_add_right]

theorem decPayload_getLsbD (f : Frame) {k : Nat} (h1 : 1 ≤ k) (h2 : k ≤ 32) :
    (decPayload f).getLsbD (32 - k) = f.getLsbD (2 * k) := by
  have hlt : 32 - k < 32 := by omega
  rw [decPayload, BitVec.getLsbD_ofNat, decodedPayload_testBit f hlt, Nat.sub_sub_self h2]
  simp [hlt]

/-- A payload is what DEC reads in a frame as soon as the two agree at every data symbol. -/
theorem decPayload_eq_of_data {f : Frame} {P : Payload}
    (h : ∀ k, 1 ≤ k → k ≤ 32 → f.getLsbD (2 * k) = P.getLsbD (32 - k)) : decPayload f = P := by
  refine BitVec.eq_of_getLsbD_eq fun i hi => ?_
  obtain ⟨k, h1, h2, rfl⟩ : ∃ k, 1 ≤ k ∧ k ≤ 32 ∧ i = 32 - k := ⟨32 - i, by omega⟩
  rw [decPayload_getLsbD f h1 h2, h k h1 h2]

theorem decPayload_frameOf (P : Payload) : decPayload (frameOf P) = P :=
  decPayload_eq_of_data fun k h1 h2 => (frameOf_data_bits P k h1 h2).2

theorem dec_enc (identity : BitVec 26) (group state : BitVec 1) (unit : BitVec 4) :
    dec (enc identity group state unit) = (identity, group, state, unit) := by
  obtain ⟨hidentity, hgroup, hstate, hunit⟩ := payloadOf_fields identity group state unit
  rw [dec_eq, enc, decPayload_frameOf, hidentity, hgroup, hstate, hunit]

/-- Settles O7: the payload DEC reads has the data bits, and those of ENC's frame are the payload's. -/
theorem decInvertsEnc : Obligations.DecInvertsEnc := by
  refine ⟨fun f k h1 h2 => ?_, dec_enc⟩
  rw [payloadOf_dec, decPayload_getLsbD f h1 h2]

/-! Distinct waveforms (rule R106). -/

/-- The first low of a data bit tells which bit it is, when `long` is more than one unit. -/
theorem bitWave_injective {p : Params} (hlong : 2 ≤ p.longUnits) :
    Function.Injective (bitWave p) := by
  rw [Bool.injective_iff]
  intro h
  have hlow : 1 = p.longUnits := congrArg (fun w => (w[1]?.getD default).2) h
  omega

theorem bitWave_length (p : Params) (b : Bool) : (bitWave p b).length = 4 := by cases b <;> rfl

/-- Data bits take four entries each, so a frame's waveform shows every one of them. -/
theorem data_bits_eq_of_frameWave_eq {p : Params} (hlong : 2 ≤ p.longUnits) {f f' : Frame}
    (h : frameWave p f = frameWave p f') {k : Nat} (h1 : 1 ≤ k) (h2 : k ≤ 32) :
    f.getLsbD (2 * k) = f'.getLsbD (2 * k) := by
  have hdata := List.append_cancel_left (List.append_cancel_right h)
  have hbits := List.eq_iff_flatten_eq.2 ⟨hdata, by simp [bitWave_length]⟩
  have hbit := List.map_inj_left.1 hbits (k - 1) (List.mem_range.2 (by omega))
  rw [Nat.sub_add_cancel h1] at hbit
  exact bitWave_injective hlong hbit

theorem dec_eq_of_frameWave_eq {p : Params} (hlong : 2 ≤ p.longUnits) {f f' : Frame}
    (h : frameWave p f = frameWave p f') : dec f = dec f' := by
  have hpayload : decPayload f = decPayload f' := decPayload_eq_of_data fun k h1 h2 => by
    rw [data_bits_eq_of_frameWave_eq hlong h h1 h2, decPayload_getLsbD f' h1 h2]
  rw [dec_eq, dec_eq, hpayload]

/-- Settles O8: DEC depends on the waveform alone and gives the operands back, so equal waveforms come
from equal operands; and equal frames have equal waveforms. -/
theorem distinctCommandsDistinctWaveforms : Obligations.DistinctCommandsDistinctWaveforms := by
  intro p i i' g g' s s' u u' hlong hne
  have hwave : frameWave p (enc i g s u) ≠ frameWave p (enc i' g' s' u') := by
    intro h
    have hdec := dec_eq_of_frameWave_eq hlong h
    rw [dec_enc, dec_enc] at hdec
    exact hne hdec
  exact ⟨fun h => hwave (congrArg (frameWave p) h), hwave⟩

/-! Operands that fit no port (rules R102 and R191). -/

/-- One operand out of its range and the record fits no port (rule R102). -/
theorem operandsFit_outOfRange {identity group state unit : Nat}
    (h : 2 ^ 26 ≤ identity ∨ 2 ≤ group ∨ 2 ≤ state ∨ 16 ≤ unit) :
    ¬operandsFit identity group state unit = true := by
  rw [operandsFit_iff]
  omega

theorem exec_encode_unfit {identity group state unit : Nat} (s : State)
    (h : ¬operandsFit identity group state unit = true) :
    exec (.encode identity group state unit) s = .refused .invalidArgument := if_neg h

theorem exec_start_unfit {s : State} (h : ¬s.ports.operandsOk = true) :
    exec .start s = .refused .invalidArgument := if_neg h

theorem exec_start_tooWide {s : State} (hok : s.ports.operandsOk = true)
    (h : ¬s.ports.repeatOk s.params = true) : exec .start s = .refused .repeatCountTooWide :=
  (if_pos hok).trans (if_neg h)

/-- Settles O13: the checks of ENCODE and START come before any look at the registers. -/
theorem outOfRangeOperandsRefused : Obligations.OutOfRangeOperandsRefused := by
  refine ⟨fun identity group state unit s h => ?_, fun s h => ?_, fun s hok hcount => ?_⟩
  · exact exec_encode_unfit s (operandsFit_outOfRange h)
  · exact exec_start_unfit (operandsFit_outOfRange h)
  · refine exec_start_tooWide hok ?_
    rw [Inputs.repeatOk_iff]
    exact Nat.not_lt.2 hcount

end Sys2Proof.Machine

/-! ### Serializer: the phases of a symbol, the phase timer and the frame waveform
(spec/41_serializer.md) -/

namespace Sys2Proof.Machine

/-! NEXT in closed form (rule R127). -/

/-- Every entry of a recipe has time, but for the low of `E` (rule R126). -/
theorem lut_timed {p : Params} (hwf : p.wf = true) {c : Sym} (hc : c ≠ .E) {q : Nat}
    (hq : q < nph p c) : 1 ≤ (lut p c q).units := by
  obtain ⟨-, hlong, hlow, -, -⟩ := p.wf_iff.1 hwf
  have hlong : 1 ≤ p.longUnits := by omega
  cases c with
  | E => exact absurd rfl hc
  | B =>
    change q < 2 at hq
    interval_cases q <;> simp [hlow]
  | zero | one =>
    change q < 4 at hq
    interval_cases q <;> simp [hlong]

/-- NEXT: the next entry of the recipe, of which `E` has only one to play; then the symbol is over. -/
theorem nextPhase_eq {p : Params} (hwf : p.wf = true) (c : Sym) (k : SymIdx) {q : PhaseIdx}
    (hq : q.toNat < nph p c) :
    nextPhase p c k q =
      if q.toNat + 1 < nph p c ∧ c ≠ .E then .phase k (q + 1#2) else afterSymbol k := by
  obtain ⟨-, hlong, hlow, -, -⟩ := p.wf_iff.1 hwf
  have hlong : 1 ≤ p.longUnits := by omega
  obtain rfl | rfl | rfl | rfl : q = 0#2 ∨ q = 1#2 ∨ q = 2#2 ∨ q = 3#2 := by
    clear hq; revert q; decide
  · cases c with
    | B => exact nextPhase_B_0 p hlow k
    | E => exact nextPhase_E_0 p k
    | zero => exact nextPhase_zero_0 p k
    | one => exact nextPhase_one_0 p hlong k
  · cases c with
    | B => exact nextPhase_B_1 p k
    | E => rfl
    | zero => exact nextPhase_zero_1 p k
    | one => exact nextPhase_one_1 p k
  · cases c with
    | B | E => exact absurd (show 2 < 2 from hq) (by decide)
    | zero => exact nextPhase_zero_2 p hlong k
    | one => exact nextPhase_one_2 p k
  · cases c with
    | B | E => exact absurd (show 3 < 2 from hq) (by decide)
    | zero => exact nextPhase_zero_3 p k
    | one => exact nextPhase_one_3 p k

/-- Settles O19: the closed form of NEXT, and the two phases it can return. -/
theorem nextReturnsTimedPhases : Obligations.NextReturnsTimedPhases := by
  intro p c k q hwf hk hq
  refine ⟨nextPhase_eq hwf c k hq, fun k' q' hnext => ?_⟩
  rcases nextPhase_cases p c k q with ⟨q₁, hsame⟩ | hend
  · obtain ⟨rfl, rfl⟩ : k = k' ∧ q₁ = q' := by simpa using hsame.symm.trans hnext
    exact .inl ⟨rfl, nextPhase_same p c k q q₁ hsame⟩
  · rw [hend, afterSymbol] at hnext
    split_ifs at hnext with hlt
    obtain ⟨rfl, rfl⟩ : k + 1#6 = k' ∧ 0#2 = q' := by simpa using hnext
    exact .inr ⟨rfl, rfl, hlt, fun c' => by rw [lut_first]⟩

/-! One edge of a busy machine with no command: what `playEdge` does, by the answer of TIMER_STEP. -/

/-- The edge is not the one at which a waiting boundary abort ends a gap (rule R157). -/
abbrev Regs.gapUncut (p : Params) (r : Regs) : Prop :=
  ¬(p.abortAtBoundary = true ∧ r.st = .gap ∧ r.abortPending = true)

theorem Regs.gapUncut_of_send {p : Params} {r : Regs} (hst : r.st = .send) : r.gapUncut p := by
  simp [Regs.gapUncut, hst]

theorem playEdge_timer {p : Params} {r : Regs} (c : Sym) (hbusy : r.st.isIdle = false)
    (hcut : r.gapUncut p) :
    playEdge p r c =
      match timerStep p r with
      | .running r' => { r' with abortPending := r.abortPending }
      | .phaseEnd =>
        if r.st = .send then sendPhaseEnd p r c r.abortPending else gapPhaseEnd p r :=
  (playEdge_busy p r c hbusy).trans (advance_timer p r c r.abortPending hcut)

theorem playEdge_tick {p : Params} {r : Regs} (c : Sym) (hbusy : r.st.isIdle = false)
    (hcut : r.gapUncut p) (htick : r.tick < p.unitCycles - 1) :
    playEdge p r c = { r with tick := r.tick + 1 } := by
  rw [playEdge_timer c hbusy hcut, timerStep_tick p r htick]

theorem playEdge_unit {p : Params} {r : Regs} (c : Sym) (hbusy : r.st.isIdle = false)
    (hcut : r.gapUncut p) (htick : p.unitCycles - 1 ≤ r.tick) (hunits : 1 < r.unitsLeft) :
    playEdge p r c = { r with tick := 0, unitsLeft := r.unitsLeft - 1 } := by
  rw [playEdge_timer c hbusy hcut, timerStep_unit p r htick hunits]

theorem playEdge_phaseEnd {p : Params} {r : Regs} (c : Sym) (hst : r.st = .send)
    (hend : r.phaseEnds p) : playEdge p r c = sendPhaseEnd p r c r.abortPending := by
  rw [playEdge_timer c (by rw [hst]; rfl) (Regs.gapUncut_of_send hst), timerStep_phaseEnd p r hend]
  exact if_pos hst

/-- The phase end inside a symbol loads the symbol's next phase. -/
theorem playEdge_nextPhase {p : Params} {r : Regs} {c : Sym} {q : PhaseIdx} (hst : r.st = .send)
    (hend : r.phaseEnds p) (hnext : nextPhase p c r.symIdx r.phase = .phase r.symIdx q) :
    playEdge p r c = r.atPhase r.symIdx q (lut p c q.toNat).level (lut p c q.toNat).units := by
  rw [playEdge_phaseEnd c hst hend, sendPhaseEnd_same p r c r.abortPending q hnext]
  rfl

/-- The phase end that ends a symbol: ABORTED if a boundary abort waits, else the next symbol or the
gap. -/
theorem playEdge_symbolEnd {p : Params} {r : Regs} {c : Sym} (hst : r.st = .send)
    (hend : r.phaseEnds p) (hnext : nextPhase p c r.symIdx r.phase = afterSymbol r.symIdx) :
    playEdge p r c =
      if p.abortAtBoundary = true ∧ r.abortPending = true then r.ended .aborted
      else if r.symIdx < 33#6 then r.atPhase (r.symIdx + 1#6) 0#2 true 1
      else r.atGap p.gapUnits := by
  rw [playEdge_phaseEnd c hst hend]
  split_ifs with habort hk
  · rw [habort.2, sendPhaseEnd_abort p r c hnext habort.1]
  · rw [sendPhaseEnd_next p r c r.abortPending hnext habort, if_pos hk]
  · rw [sendPhaseEnd_next p r c r.abortPending hnext habort, if_neg hk]

/-! The four symbols at a phase end (rules R121 to R124). -/

/-- Inside a symbol its meaning loads its next phase. -/
theorem exec_symbol_nextPhase (c : Sym) {s : State} {k : SymIdx} {q q' : PhaseIdx}
    (hst : s.regs.st = .send) (hend : s.regs.phaseEnds s.params) (hk : s.regs.symIdx = k)
    (hq : s.regs.phase = q) (hnext : nextPhase s.params c k q = .phase k q') :
    exec c.instr s = .next (s.withRegs (s.regs.atPhase k q' (lut s.params c q'.toNat).level
      (lut s.params c q'.toNat).units)) := by
  subst hk hq
  rw [exec_symbol, playEdge_nextPhase hst hend hnext]

/-- After its last phase a symbol before the last gives way to the next one. -/
theorem exec_symbol_nextSymbol (c : Sym) {s : State} {k : SymIdx} {q : PhaseIdx}
    (hst : s.regs.st = .send) (hend : s.regs.phaseEnds s.params) (hk : s.regs.symIdx = k)
    (hlt : k < 33#6) (hq : s.regs.phase = q) (hnext : nextPhase s.params c k q = afterSymbol k) :
    exec c.instr s = .next (s.withRegs
      (if s.params.abortAtBoundary = true ∧ s.regs.abortPending = true then s.regs.ended .aborted
        else s.regs.atPhase (k + 1#6) 0#2 true 1)) := by
  subst hk hq
  rw [exec_symbol, playEdge_symbolEnd hst hend hnext, if_pos hlt]

/-- Settles O14, by the two phases of `B`. -/
theorem symBPhases : Obligations.SymBPhases := by
  intro s hst hend hk hlow
  exact ⟨fun hq => exec_symbol_nextPhase .B hst hend rfl hq (nextPhase_B_0 _ hlow _),
    fun hq => exec_symbol_nextSymbol .B hst hend rfl hk hq (nextPhase_B_1 _ _)⟩

/-- Settles O15: NEXT passes over the zero-unit entry, and there is no symbol 34. -/
theorem symEPhases : Obligations.SymEPhases := by
  intro s hst hend hk hq
  have hnext : nextPhase s.params .E s.regs.symIdx s.regs.phase = afterSymbol s.regs.symIdx := by
    rw [hq, nextPhase_E_0]
  have hlast : ¬s.regs.symIdx < 33#6 := by rw [hk]; decide
  exact (exec_symbol .E s).trans (by rw [playEdge_symbolEnd hst hend hnext, if_neg hlast])

/-- Settles O16, by the four phases of `0`. -/
theorem sym0Phases : Obligations.Sym0Phases := by
  intro s hst hend hk hlong
  exact ⟨fun hq => exec_symbol_nextPhase .zero hst hend rfl hq (nextPhase_zero_0 _ _),
    fun hq => exec_symbol_nextPhase .zero hst hend rfl hq (nextPhase_zero_1 _ _),
    fun hq => exec_symbol_nextPhase .zero hst hend rfl hq (nextPhase_zero_2 _ hlong _),
    fun hq => exec_symbol_nextSymbol .zero hst hend rfl hk hq (nextPhase_zero_3 _ _)⟩

/-- Settles O17, by the four phases of `1`. -/
theorem sym1Phases : Obligations.Sym1Phases := by
  intro s hst hend hk hlong
  exact ⟨fun hq => exec_symbol_nextPhase .one hst hend rfl hq (nextPhase_one_0 _ hlong _),
    fun hq => exec_symbol_nextPhase .one hst hend rfl hq (nextPhase_one_1 _ _),
    fun hq => exec_symbol_nextPhase .one hst hend rfl hq (nextPhase_one_2 _ _),
    fun hq => exec_symbol_nextSymbol .one hst hend rfl hk hq (nextPhase_one_3 _ _)⟩

/-- NOP plays the edge of the symbol at the program counter (rule R153). -/
theorem exec_nop (s : State) :
    exec .nop s = .next (s.withRegs (playEdge s.params s.regs s.regs.currentSym)) := rfl

/-- Settles O18: a symbol in SEND and NOP in SEND or GAP are both a `playEdge` that no waiting abort
cuts, and TIMER_STEP goes on. -/
theorem phaseTimerCounts : Obligations.PhaseTimerCounts := by
  intro i s hi
  obtain ⟨c, hexec, hbusy, hcut⟩ : ∃ c,
      exec i s = .next (s.withRegs (playEdge s.params s.regs c)) ∧
      s.regs.st.isIdle = false ∧ s.regs.gapUncut s.params := by
    rcases hi with ⟨hst, c, rfl⟩ | ⟨rfl, hst | ⟨hst, hcut⟩⟩
    · exact ⟨c, exec_symbol c s, by rw [hst]; rfl, Regs.gapUncut_of_send hst⟩
    · exact ⟨_, exec_nop s, by rw [hst]; rfl, Regs.gapUncut_of_send hst⟩
    · exact ⟨_, exec_nop s, by rw [hst]; rfl,
        fun ⟨hmode, _, hpending⟩ => hcut ⟨hmode, hpending⟩⟩
  rw [hexec]
  exact ⟨fun htick => by rw [playEdge_tick c hbusy hcut htick],
    fun htick hunits => by rw [playEdge_unit c hbusy hcut htick hunits]⟩

/-! The phase timer over many edges (rule R125). -/

/-- The registers `j` cycles after a phase load. -/
def Regs.held (p : Params) (r : Regs) (j : Nat) : Regs :=
  { r with tick := j % p.unitCycles, unitsLeft := r.unitsLeft - j / p.unitCycles }

theorem Regs.held_zero (p : Params) {r : Regs} (htick : r.tick = 0) : r.held p 0 = r := by
  cases r; cases htick; simp [Regs.held]

/-- Before the last cycle of its units a phase goes on to its next cycle. -/
theorem playEdge_held {p : Params} {r : Regs} (c : Sym) {j : Nat} (hunit : 1 ≤ p.unitCycles)
    (hbusy : r.st.isIdle = false) (hcut : r.gapUncut p) (hj : j + 1 < r.unitsLeft * p.unitCycles) :
    playEdge p (r.held p j) c = r.held p (j + 1) := by
  have hmod := Nat.mod_lt j hunit
  have hdiv := Nat.div_add_mod j p.unitCycles
  by_cases htick : j % p.unitCycles < p.unitCycles - 1
  · obtain ⟨hdiv', hmod'⟩ := (Nat.div_mod_unique hunit (a := j + 1) (d := j / p.unitCycles)
      (c := j % p.unitCycles + 1)).2 ⟨by omega, by omega⟩
    rw [playEdge_tick (r := r.held p j) c hbusy hcut htick]
    simp [Regs.held, hdiv', hmod']
  · obtain ⟨hdiv', hmod'⟩ := (Nat.div_mod_unique hunit (a := j + 1) (d := j / p.unitCycles + 1)
      (c := 0)).2 ⟨by rw [Nat.mul_succ]; omega, hunit⟩
    have hleft : (j + 1) / p.unitCycles < r.unitsLeft := Nat.div_lt_of_lt_mul (by rwa [Nat.mul_comm])
    have hunits : 1 < (r.held p j).unitsLeft := by simp only [Regs.held]; omega
    rw [playEdge_unit (r := r.held p j) c hbusy hcut (Nat.le_of_not_lt htick) hunits]
    simp [Regs.held, hdiv', hmod', Nat.sub_sub]

/-- The phase ends in the last cycle of its units and in no earlier one. -/
theorem Regs.phaseEnds_held {p : Params} {r : Regs} {j : Nat} (hunit : 1 ≤ p.unitCycles)
    (hj : j < r.unitsLeft * p.unitCycles) :
    (r.held p j).phaseEnds p ↔ j + 1 = r.unitsLeft * p.unitCycles := by
  have hmod := Nat.mod_lt j hunit
  have hdiv := Nat.div_add_mod j p.unitCycles
  have hleft : j / p.unitCycles < r.unitsLeft := Nat.div_lt_of_lt_mul (by rwa [Nat.mul_comm])
  obtain ⟨d, hd⟩ := Nat.exists_eq_add_of_lt hleft
  have hprod : r.unitsLeft * p.unitCycles =
      p.unitCycles * (j / p.unitCycles) + p.unitCycles + d * p.unitCycles := by rw [hd]; ring
  have hends : (r.held p j).phaseEnds p ↔ p.unitCycles - 1 ≤ j % p.unitCycles ∧ d = 0 := by
    simp only [Regs.phaseEnds, Regs.held]; omega
  rw [hends, hprod]
  rcases d with _ | d
  · omega
  · rw [Nat.succ_mul]; omega

/-! Runs: what the line shows, cycle by cycle. -/

/-- From `s` the line shows `w`, one level in each cycle, and `t` is the state of the cycle after. -/
inductive Plays : State → List Bool → State → Prop where
  | nil (s : State) : Plays s [] s
  | cycle {s s' t : State} {w : List Bool} (hstep : step s = .next s') (hrest : Plays s' w t) :
      Plays s (s.tx :: w) t

theorem Plays.append {s t u : State} {w v : List Bool} (h : Plays s w t) (h' : Plays t v u) :
    Plays s (w ++ v) u := by
  induction h with
  | nil => exact h'
  | cycle hstep _ ih => exact .cycle hstep (ih h')

theorem Plays.steps {s t : State} {w : List Bool} (h : Plays s w t) :
    steps w.length s = some t := by
  induction h with
  | nil => rfl
  | cycle hstep _ ih => simp [Machine.steps, hstep, ih]

/-- The line in the first cycle and `txTrace` in those after it are the levels played. -/
theorem Plays.tx_txTrace {s t : State} {w : List Bool} (h : Plays s w t) (hne : w ≠ []) :
    s.tx :: txTrace (w.length - 1) s = w := by
  induction h with
  | nil => exact absurd rfl hne
  | @cycle s s' t w hstep _ ih =>
    cases w with
    | nil => rfl
    | cons b w =>
      have hrest : s'.tx :: txTrace w.length s' = b :: w := ih (List.cons_ne_nil b w)
      simpa [txTrace, hstep] using hrest

/-- The inputs of the current cycle and of those after it, `n` in all, disturb no transmission. -/
def State.undisturbedFor (s : State) (n : Nat) : Prop :=
  ∀ inp ∈ (s.ports :: s.host).take n, inp.undisturbed s.params

theorem State.undisturbedFor_succ (s : State) (n : Nat) :
    s.undisturbedFor (n + 1) ↔
      s.ports.undisturbed s.params ∧ ∀ inp ∈ s.host.take n, inp.undisturbed s.params := by
  simp [State.undisturbedFor]

/-- The host's next inputs are those promised, or a NOP when its list is at its end. -/
theorem State.undisturbedFor_next {s : State} {n : Nat} (h : s.undisturbedFor (n + 1)) (r : Regs) :
    (s.withRegs r).nextInputs.undisturbedFor n := by
  rw [State.undisturbedFor_succ] at h
  obtain ⟨params, regs, ports, host⟩ := s
  cases host with
  | nil =>
    intro inp hinp
    obtain rfl : inp = ports.quiet := by exact List.mem_singleton.1 (List.mem_of_mem_take hinp)
    exact ports.quiet_undisturbed params
  | cons inp rest => exact h.2

/-- An undisturbed cycle of a busy machine is one `playEdge` (rule R163). -/
theorem step_undisturbed {s : State} (hwf : s.params.wf = true) (hbusy : s.regs.st.isIdle = false)
    (hports : s.ports.undisturbed s.params) :
    step s =
      .next (s.withRegs (playEdge s.params s.regs s.regs.currentSym)).nextInputs := by
  obtain ⟨hclk, hrst, habort, hfit⟩ := hports
  have hedge : edgeRegs s.params s.regs s.ports = playEdge s.params s.regs s.regs.currentSym := by
    simp [edgeRegs, hrst, habort, startEdge_busy _ _ _ hbusy]
  rw [step_edge s hwf hclk fun _ _ hstart => hfit hstart, hedge]

/-- From `s` the line shows `w`, after which the registers are `r`, with `m` more undisturbed cycles to
come and the parameters unchanged. -/
def State.playsTo (s : State) (w : List Bool) (r : Regs) (m : Nat) : Prop :=
  ∃ t, Plays s w t ∧ t.params = s.params ∧ t.regs = r ∧ t.undisturbedFor m

theorem State.playsTo_nil {s : State} {m : Nat} (h : s.undisturbedFor m) : s.playsTo [] s.regs m :=
  ⟨s, .nil s, rfl, rfl, h⟩

theorem State.playsTo_append {s : State} {w v : List Bool} {r r' : Regs} {m m' : Nat}
    (h : s.playsTo w r m)
    (h' : ∀ t : State, t.params = s.params → t.regs = r → t.undisturbedFor m → t.playsTo v r' m') :
    s.playsTo (w ++ v) r' m' := by
  obtain ⟨t, hplays, hparams, hregs, hmore⟩ := h
  obtain ⟨u, hplays', hparams', hregs', hmore'⟩ := h' t hparams hregs hmore
  exact ⟨u, hplays.append hplays', hparams'.trans hparams, hregs', hmore'⟩

theorem State.playsTo_cycle {s : State} {m : Nat} (hwf : s.params.wf = true)
    (hbusy : s.regs.st.isIdle = false) (h : s.undisturbedFor (m + 1)) :
    s.playsTo [s.regs.line] (playEdge s.params s.regs s.regs.currentSym) m :=
  ⟨_, .cycle (step_undisturbed hwf hbusy ((s.undisturbedFor_succ m).1 h).1) (.nil _),
    by simp, by simp, State.undisturbedFor_next h _⟩

/-- Within a phase the line keeps its level while the timer counts (rule R125), by induction on the
cycles. -/
theorem State.playsTo_held {s : State} {m : Nat} (hwf : s.params.wf = true)
    (hbusy : s.regs.st.isIdle = false) (hcut : s.regs.gapUncut s.params) (htick : s.regs.tick = 0)
    (j : Nat) (hj : j < s.regs.unitsLeft * s.params.unitCycles) (h : s.undisturbedFor (j + m)) :
    s.playsTo (List.replicate j s.regs.line) (s.regs.held s.params j) m := by
  obtain ⟨hunit, -⟩ := s.params.wf_iff.1 hwf
  induction j generalizing m with
  | zero =>
    rw [Regs.held_zero s.params htick]
    exact State.playsTo_nil (by rwa [Nat.zero_add] at h)
  | succ j ih =>
    rw [List.replicate_succ']
    refine State.playsTo_append (ih (m := m + 1) (by omega) (Nat.add_right_comm j 1 m ▸ h))
      fun t hparams hregs hmore => ?_
    have hedge := playEdge_held s.regs.currentSym hunit hbusy hcut hj
    have hcycle := t.playsTo_cycle (by rwa [hparams]) (by rwa [hregs]) hmore
    rw [hparams, hregs] at hcycle
    rwa [← hedge]

/-- Settles O20: within the phase the registers are `Regs.held`. -/
theorem phaseHeldExactly : Obligations.PhaseHeldExactly := by
  rintro s u j hwf hbusy hcut htick rfl - hports hhost hj
  obtain ⟨hunit, -⟩ := s.params.wf_iff.1 hwf
  have hmore := (s.undisturbedFor_succ _).2 ⟨hports, hhost⟩
  rw [show s.regs.unitsLeft * s.params.unitCycles + 1 =
    j + (s.regs.unitsLeft * s.params.unitCycles + 1 - j) by omega] at hmore
  obtain ⟨t, hplays, -, hregs, -⟩ :=
    State.playsTo_held hwf (by simpa using hbusy) hcut htick j hj hmore
  have hsteps := hplays.steps
  rw [List.length_replicate] at hsteps
  exact ⟨t, hsteps, hregs, by rw [hregs]; exact Regs.phaseEnds_held hunit hj⟩

/-! A symbol from one of its phases to its end. -/

/-- The waveform of the phases of a symbol from the `q`-th on, the zero-unit entry left out. -/
def waveFrom (p : Params) (c : Sym) (q : Nat) : List (Bool × Nat) :=
  (((recipe p c).drop q).filter fun e => decide (e.units ≠ 0)).map fun e => (e.level, e.units)

theorem waveFrom_zero (p : Params) (c : Sym) : waveFrom p c 0 = symbolWave p c := rfl

/-- A timed phase is the first of its own remaining waveform. -/
theorem waveFrom_timed {p : Params} {c : Sym} {q : Nat} (hq : q < nph p c)
    (htimed : 1 ≤ (lut p c q).units) :
    waveFrom p c q = ((lut p c q).level, (lut p c q).units) :: waveFrom p c (q + 1) := by
  have hentry : (recipe p c)[q]'hq = lut p c q := by simp [lut, List.getElem?_eq_getElem hq]
  have hne : (lut p c q).units ≠ 0 := by omega
  rw [waveFrom, List.drop_eq_getElem_cons hq, hentry, List.filter_cons_of_pos (by simpa using hne)]
  rfl

/-- Nothing is left to play after the last phase, and after the first of `E`. -/
theorem waveFrom_end {p : Params} {c : Sym} {q : Nat} (h : ¬(q + 1 < nph p c ∧ c ≠ .E)) :
    waveFrom p c (q + 1) = [] := by
  by_cases hlast : q + 1 < nph p c
  · obtain rfl : c = .E := by simpa [hlast] using h
    change q + 1 < 2 at hlast
    obtain rfl : q = 0 := by omega
    rfl
  · rw [waveFrom, List.drop_eq_nil_of_le (Nat.le_of_not_lt hlast)]
    rfl

@[simp] theorem samples_nil (p : Params) : samples p [] = [] := rfl

theorem samples_cons (p : Params) (e : Bool × Nat) (w : List (Bool × Nat)) :
    samples p (e :: w) = List.replicate (e.2 * p.unitCycles) e.1 ++ samples p w := rfl

theorem waveUnits_cons (e : Bool × Nat) (w : List (Bool × Nat)) :
    waveUnits (e :: w) = e.2 + waveUnits w := rfl

theorem samples_length (p : Params) (w : List (Bool × Nat)) :
    (samples p w).length = waveUnits w * p.unitCycles := by
  induction w with
  | nil => simp [waveUnits]
  | cons e w ih => simp [samples_cons, waveUnits_cons, ih, Nat.add_mul]

/-- Leaving out the zero-unit entries takes no time away. -/
theorem waveUnits_timed (l : List LutEntry) :
    waveUnits ((l.filter fun e => decide (e.units ≠ 0)).map fun e => (e.level, e.units)) =
      (l.map LutEntry.units).sum := by
  induction l with
  | nil => rfl
  | cons e l ih =>
    by_cases h : e.units = 0
    · rw [List.filter_cons_of_neg (by simpa using h), ih, List.map_cons, List.sum_cons, h, Nat.zero_add]
    · rw [List.filter_cons_of_pos (by simpa using h), List.map_cons, waveUnits_cons, ih]
      rfl

theorem waveUnits_symbolWave (p : Params) (c : Sym) :
    waveUnits (symbolWave p c) = symbolUnits p c := waveUnits_timed (recipe p c)

theorem symbolUnits_pos (p : Params) (c : Sym) : 0 < symbolUnits p c := by
  cases c <;> simp [symbolUnits, recipe]

/-- A phase, held for its units, and the edge that ends it. -/
theorem State.playsTo_phase {s : State} {m : Nat} (hwf : s.params.wf = true)
    (hbusy : s.regs.st.isIdle = false) (hcut : s.regs.gapUncut s.params) (htick : s.regs.tick = 0)
    {j : Nat} (hj : j + 1 = s.regs.unitsLeft * s.params.unitCycles) (h : s.undisturbedFor (j + 1 + m)) :
    s.playsTo (List.replicate (j + 1) s.regs.line)
      (playEdge s.params (s.regs.held s.params j) s.regs.currentSym) m := by
  rw [List.replicate_succ']
  refine State.playsTo_append (s.playsTo_held hwf hbusy hcut htick j (by omega) (m := m + 1)
    (Nat.add_right_comm j 1 m ▸ h)) fun t hparams hregs hmore => ?_
  have hcycle := t.playsTo_cycle (by rwa [hparams]) (by rwa [hregs]) hmore
  rwa [hparams, hregs] at hcycle

/-- The first cycle of a timed phase in SEND with no abort waiting, `E` standing at the last position. -/
structure Regs.startsPhase (p : Params) (r : Regs) : Prop where
  st : r.st = .send
  pending : r.abortPending = false
  last : ¬r.symIdx < 33#6 → r.currentSym = .E
  phase : r.phase.toNat < nph p r.currentSym
  timed : 1 ≤ (lut p r.currentSym r.phase.toNat).units
  line : r.line = (lut p r.currentSym r.phase.toNat).level
  units : r.unitsLeft = (lut p r.currentSym r.phase.toNat).units
  tick : r.tick = 0

/-- What the recipe of the current symbol has left, as the phase begins. -/
theorem Regs.startsPhase.waveFrom_eq {p : Params} {r : Regs} (h : r.startsPhase p) :
    waveFrom p r.currentSym r.phase.toNat =
      (r.line, r.unitsLeft) :: waveFrom p r.currentSym (r.phase.toNat + 1) := by
  rw [waveFrom_timed h.phase h.timed, ← h.line, ← h.units]

/-- The next phase of the current symbol, loaded. -/
def Regs.nextPhaseLoaded (p : Params) (r : Regs) : Regs :=
  r.atPhase r.symIdx (r.phase + 1#2) (lut p r.currentSym (r.phase + 1#2).toNat).level
    (lut p r.currentSym (r.phase + 1#2).toNat).units

/-- The symbol has another phase to play: not past its recipe, and not the zero-unit entry of `E`. -/
abbrev Regs.hasNextPhase (p : Params) (r : Regs) : Prop :=
  r.phase.toNat + 1 < nph p r.currentSym ∧ r.currentSym ≠ .E

@[simp] theorem Regs.nextPhaseLoaded_currentSym (p : Params) (r : Regs) :
    (r.nextPhaseLoaded p).currentSym = r.currentSym := rfl
@[simp] theorem Regs.nextPhaseLoaded_symIdx (p : Params) (r : Regs) :
    (r.nextPhaseLoaded p).symIdx = r.symIdx := rfl

/-- The index of the next phase does not wrap. -/
theorem Regs.nextPhaseLoaded_phase {p : Params} {r : Regs} (h : r.hasNextPhase p) :
    (r.nextPhaseLoaded p).phase.toNat = r.phase.toNat + 1 := by
  have hfour : nph p r.currentSym ≤ 4 := by cases r.currentSym <;> simp [nph, recipe]
  have hlt := h.1
  exact (BitVec.toNat_add _ _).trans (Nat.mod_eq_of_lt (show r.phase.toNat + 1 < 4 by omega))

theorem Regs.startsPhase.nextPhaseLoaded {p : Params} (hwf : p.wf = true) {r : Regs}
    (h : r.startsPhase p) (hnext : r.hasNextPhase p) : (r.nextPhaseLoaded p).startsPhase p := by
  have hlt : (r.nextPhaseLoaded p).phase.toNat < nph p r.currentSym := by
    rw [Regs.nextPhaseLoaded_phase hnext]
    exact hnext.1
  exact ⟨h.st, h.pending, h.last, hlt, lut_timed hwf hnext.2 hlt, rfl, rfl, rfl⟩

/-- The edge of a phase's last cycle, when the symbol has another phase. -/
theorem Regs.startsPhase.edge_nextPhase {p : Params} (hwf : p.wf = true) {r : Regs}
    (h : r.startsPhase p) (hnext : r.hasNextPhase p) {j : Nat} (hend : (r.held p j).phaseEnds p) :
    playEdge p (r.held p j) r.currentSym = r.nextPhaseLoaded p :=
  playEdge_nextPhase (r := r.held p j) h.st hend
    ((nextPhase_eq hwf r.currentSym r.symIdx h.phase).trans (if_pos hnext))

/-- The edge of the last cycle of a symbol's last phase. -/
theorem Regs.startsPhase.edge_symbolEnd {p : Params} (hwf : p.wf = true) {r : Regs}
    (h : r.startsPhase p) (hnext : ¬r.hasNextPhase p) {j : Nat} (hend : (r.held p j).phaseEnds p) :
    playEdge p (r.held p j) r.currentSym =
      if r.symIdx < 33#6 then r.atPhase (r.symIdx + 1#6) 0#2 true 1 else r.atGap p.gapUnits := by
  have hover : nextPhase p r.currentSym r.symIdx r.phase = afterSymbol r.symIdx :=
    (nextPhase_eq hwf r.currentSym r.symIdx h.phase).trans (if_neg hnext)
  exact (playEdge_symbolEnd (r := r.held p j) h.st hend hover).trans
    (if_neg fun habort => by simpa [Regs.held, h.pending] using habort.2)

/-- From the first cycle of any timed phase a symbol plays what is left of its recipe, and the next
symbol (or the gap) is loaded at the edge of its last cycle (rule R130); by induction on the phases
left. -/
theorem State.playsTo_symbolEnd {s : State} {m : Nat} (hwf : s.params.wf = true)
    (h : s.regs.startsPhase s.params)
    (hmore : s.undisturbedFor (waveUnits (waveFrom s.params s.regs.currentSym s.regs.phase.toNat) *
      s.params.unitCycles + m)) :
    s.playsTo (samples s.params (waveFrom s.params s.regs.currentSym s.regs.phase.toNat))
      (if s.regs.symIdx < 33#6 then s.regs.atPhase (s.regs.symIdx + 1#6) 0#2 true 1
        else s.regs.atGap s.params.gapUnits) m := by
  obtain ⟨hunit, -⟩ := s.params.wf_iff.1 hwf
  induction hleft : nph s.params s.regs.currentSym - s.regs.phase.toNat generalizing s with
  | zero => have := h.phase; omega
  | succ left ih =>
    have hbusy : s.regs.st.isIdle = false := by rw [h.st]; rfl
    have hone : 1 ≤ s.regs.unitsLeft := h.units ▸ h.timed
    obtain ⟨j, hj⟩ := Nat.exists_eq_add_of_le' (Nat.mul_pos hone hunit)
    have hend := (Regs.phaseEnds_held hunit (by omega)).2 hj.symm
    rw [h.waveFrom_eq, waveUnits_cons, Nat.add_mul, hj, Nat.add_assoc] at hmore
    rw [h.waveFrom_eq, samples_cons, hj]
    have hphase := State.playsTo_phase hwf hbusy (Regs.gapUncut_of_send h.st) h.tick hj.symm hmore
    by_cases hnext : s.regs.hasNextPhase s.params
    · rw [h.edge_nextPhase hwf hnext hend] at hphase
      refine State.playsTo_append hphase fun t hparams hregs hrest => ?_
      have hk : s.regs.symIdx < 33#6 := by_contra fun hk => hnext.2 (h.last hk)
      have hrun := ih (s := t) (by rwa [hparams])
        (by rw [hparams, hregs]; exact h.nextPhaseLoaded hwf hnext)
        (by rwa [hparams, hregs, Regs.nextPhaseLoaded_currentSym, Regs.nextPhaseLoaded_phase hnext])
        (by rwa [hparams])
        (by
          rw [hparams, hregs, Regs.nextPhaseLoaded_currentSym, Regs.nextPhaseLoaded_phase hnext]
          omega)
      rw [hparams, hregs, Regs.nextPhaseLoaded_currentSym, Regs.nextPhaseLoaded_phase hnext,
        Regs.nextPhaseLoaded_symIdx, if_pos hk] at hrun
      rwa [if_pos hk]
    · rw [h.edge_symbolEnd hwf hnext hend, waveFrom_end hnext] at hphase
      simpa [waveFrom_end hnext, waveUnits] using hphase

/-- The first cycle of a symbol, as the invariants of rule R36 have it. -/
theorem Regs.startsPhase_first {p : Params} {r : Regs} (hinv : r.Inv p) (hst : r.st = .send)
    (hfirst : r = r.atPhase r.symIdx 0#2 true 1) (hpending : r.abortPending = false) :
    r.startsPhase p := by
  obtain ⟨⟨hk, hq, htimed, hline, -, -, -, hmarkers⟩, -⟩ := (Regs.inv_send hst).1 hinv
  have hphase : r.phase = 0#2 := congrArg Regs.phase hfirst
  have hunits : r.unitsLeft = 1 := congrArg Regs.unitsLeft hfirst
  have htick : r.tick = 0 := congrArg Regs.tick hfirst
  have hlast : ¬r.symIdx < 33#6 → r.currentSym = .E := fun hlt =>
    Regs.currentSym_last (by bv_omega) hmarkers
  exact ⟨hst, hpending, hlast, hq, htimed, hline, by simp [hunits, hphase], htick⟩

/-- Settles O21: the symbol is played from its phase 0 to its end. -/
theorem symbolPlaysItsRecipe : Obligations.SymbolPlaysItsRecipe := by
  rintro s ⟨hwf, hinv⟩ hst hfirst hpending hports hhost
  obtain ⟨hunit, -⟩ := s.params.wf_iff.1 hwf
  have hstarts := Regs.startsPhase_first hinv hst hfirst hpending
  have hphase : s.regs.phase.toNat = 0 := congrArg (fun r : Regs => r.phase.toNat) hfirst
  have hmore := (s.undisturbedFor_succ _).2 ⟨hports, hhost⟩
  have hwave : waveFrom s.params s.regs.currentSym s.regs.phase.toNat =
      symbolWave s.params s.regs.currentSym := by rw [hphase, waveFrom_zero]
  have hrun := State.playsTo_symbolEnd hwf hstarts (m := 1)
    (by rwa [hwave, waveUnits_symbolWave])
  rw [hwave] at hrun
  obtain ⟨t, hplays, -, hregs, -⟩ := hrun
  have hlength : (samples s.params (symbolWave s.params s.regs.currentSym)).length =
      symbolUnits s.params s.regs.currentSym * s.params.unitCycles := by
    rw [samples_length, waveUnits_symbolWave]
  refine ⟨?_, t, hlength ▸ hplays.steps, hregs⟩
  rw [← hlength]
  refine hplays.tx_txTrace (List.ne_nil_of_length_pos ?_)
  rw [hlength]
  exact Nat.mul_pos (symbolUnits_pos _ _) hunit

/-! The frame waveform (rules R131 and R132). -/

/-- The waveforms of data bits, one after the other. -/
def bitsWave (p : Params) (bs : List Bool) : List (Bool × Nat) := (bs.map (bitWave p)).flatten

@[simp] theorem bitsWave_cons (p : Params) (b : Bool) (bs : List Bool) :
    bitsWave p (b :: bs) = bitWave p b ++ bitsWave p bs := rfl

/-- `W(f)` is the waveform of `B`, those of the 32 data bits, and that of `E`. -/
theorem frameWave_eq (p : Params) (f : Frame) :
    ∃ bs : List Bool, bs.length = 32 ∧
      frameWave p f = [(true, 1), (false, p.startLowUnits)] ++ bitsWave p bs ++ [(true, 1)] :=
  ⟨(List.range 32).map fun j => f.getLsbD (2 * (j + 1)), by simp, by
    simp [frameWave, bitsWave, Function.comp_def]⟩

/-- A measure that adds over concatenation and is `n` of each data bit is `n` times the number of
bits. -/
theorem bitsWave_measure (p : Params) {μ : List (Bool × Nat) → Nat} {n : Nat} (hnil : μ [] = 0)
    (happend : ∀ w v, μ (w ++ v) = μ w + μ v) (hbit : ∀ b, μ (bitWave p b) = n) (bs : List Bool) :
    μ (bitsWave p bs) = bs.length * n := by
  induction bs with
  | nil => rw [List.length_nil, Nat.zero_mul]; exact hnil
  | cons b bs ih =>
    rw [bitsWave_cons, happend, hbit, ih, List.length_cons, Nat.succ_mul, Nat.add_comm]

theorem waveUnits_append (w v : List (Bool × Nat)) :
    waveUnits (w ++ v) = waveUnits w + waveUnits v := by
  simp [waveUnits]

theorem highPulses_append (w v : List (Bool × Nat)) :
    highPulses (w ++ v) = highPulses w + highPulses v := by
  simp [highPulses]

/-- The low runs of a waveform. -/
def lowRuns (w : List (Bool × Nat)) : List (Bool × Nat) := w.filter fun e => !e.1

theorem lowRuns_append (w v : List (Bool × Nat)) : lowRuns (w ++ v) = lowRuns w ++ lowRuns v :=
  List.filter_append w v

/-- After a low run, data bits and the closing pulse alternate: every bit begins high and ends low. -/
theorem bitsWave_alternates (p : Params) (bs : List Bool) (units : Nat) :
    List.IsChain (fun a b : Bool × Nat => a.1 ≠ b.1)
      ((false, units) :: (bitsWave p bs ++ [(true, 1)])) := by
  induction bs generalizing units with
  | nil => simp [bitsWave]
  | cons b bs ih =>
    cases b <;> simpa [bitWave] using ih _

/-- Every pulse of a data bit is one unit long (rules R123 and R124). -/
theorem bitsWave_pulse (p : Params) (bs : List Bool) :
    ∀ e ∈ bitsWave p bs, e.1 = true → e.2 = 1 := by
  have hbit : ∀ b, ∀ e ∈ bitWave p b, e.1 = true → e.2 = 1 := fun b => by
    cases b <;> simp [bitWave]
  induction bs with
  | nil => simp [bitsWave]
  | cons b bs ih =>
    intro e he
    rcases List.mem_append.1 he with he | he
    · exact hbit b e he
    · exact ih e he

/-- Settles O23: each measure of `W(f)` is that of `B`, 32 times that of a data bit, and that of `E`. -/
theorem frameWaveShape : Obligations.FrameWaveShape := by
  intro p f
  obtain ⟨bs, hlength, hwave⟩ := frameWave_eq p f
  have hunits : waveUnits (bitsWave p bs) = 32 * p.dataUnits := hlength ▸
    bitsWave_measure p rfl waveUnits_append (fun b => by
      cases b <;> simp [bitWave, waveUnits, Params.dataUnits] <;> omega) bs
  have hhigh : highPulses (bitsWave p bs) = 32 * 2 := hlength ▸
    bitsWave_measure p rfl highPulses_append (fun b => by cases b <;> rfl) bs
  have hlow : (lowRuns (bitsWave p bs)).length = 32 * 2 := hlength ▸
    bitsWave_measure p (μ := fun w => (lowRuns w).length) rfl (fun w v => by simp [lowRuns_append])
      (fun b => by cases b <;> rfl) bs
  have hlowUnits : waveUnits (lowRuns (bitsWave p bs)) = 32 * (1 + p.longUnits) := hlength ▸
    bitsWave_measure p (μ := fun w => waveUnits (lowRuns w)) rfl
      (fun w v => by simp [lowRuns_append, waveUnits_append])
      (fun b => by cases b <;> simp [bitWave, lowRuns, waveUnits, Nat.add_comm]) bs
  rw [hwave]
  refine ⟨?_, ?_, ?_, ?_, ?_, ?_⟩
  · rw [waveUnits_append, waveUnits_append, hunits, Params.frameUnits]
    simp [waveUnits]
    omega
  · exact List.isChain_cons_cons.2 ⟨by simp, bitsWave_alternates p bs p.startLowUnits⟩
  · rw [highPulses_append, highPulses_append, hhigh]
    rfl
  · simpa [or_imp, forall_and] using bitsWave_pulse p bs
  · change (lowRuns _).length = 65
    rw [lowRuns_append, lowRuns_append, List.length_append, List.length_append, hlow]
    rfl
  · change waveUnits (lowRuns _) = _
    rw [lowRuns_append, lowRuns_append, waveUnits_append, waveUnits_append, hlowUnits]
    rfl

end Sys2Proof.Machine

/-! ### Sequencer: the host commands, and the transmission they drive (spec/42_sequencer.md) -/

namespace Sys2Proof.Machine

/-! The commands as edges of the registers. -/

/-- START with operands and a count that the ports hold (rule R154). -/
theorem exec_start {s : State} (hok : s.ports.operandsOk = true)
    (hcount : s.ports.repeatOk s.params = true) :
    exec .start s = .next (s.withRegs (startEdge s.params s.regs s.ports)) :=
  (if_pos hok).trans (if_pos hcount)

theorem exec_abort (start : Bool) (s : State) :
    exec (.abort start) s = .next (s.withRegs (abortEdge s.params s.regs)) := rfl

theorem exec_reset (abort start : Bool) (s : State) :
    exec (.reset abort start) s = .next (s.withRegs Regs.reset) := rfl

theorem startEdge_rejected (p : Params) {r : Regs} {inp : Inputs} (hidle : r.st.isIdle = true)
    (hcount : inp.repeatCount = 0) : startEdge p r inp = { r with status := .rejected } :=
  (if_pos hidle).trans (if_pos hcount)

theorem startEdge_accepted (p : Params) {r : Regs} {inp : Inputs} (hidle : r.st.isIdle = true)
    (hcount : inp.repeatCount ≠ 0) : startEdge p r inp = acceptStart p r inp :=
  (if_pos hidle).trans (if_neg hcount)

theorem abortEdge_immediate {p : Params} {r : Regs} (hbusy : r.st.isIdle = false)
    (hmode : p.abortAtBoundary = false) : abortEdge p r = r.ended .aborted := by
  simp [abortEdge, hbusy, hmode, goIdle_eq_ended]

theorem abortEdge_boundary {p : Params} {r : Regs} (hbusy : r.st.isIdle = false)
    (hmode : p.abortAtBoundary = true) : abortEdge p r = advance p r r.currentSym true := by
  simp [abortEdge, hbusy, hmode]

/-- Settles O24: NOP in IDLE leaves the registers, and in SEND it is the meaning of the symbol. -/
theorem nopCompletes : Obligations.NopCompletes := by
  intro s
  constructor
  · intro hidle
    rw [exec_nop, playEdge_idle _ _ _ hidle, State.withRegs_self]
  · intro _
    rw [exec_nop, exec_symbol]

/-- Settles O26: the operands fit, so START latches them; the registers are `acceptStart_eq`'s. -/
theorem startAccepted : Obligations.StartAccepted := by
  intro s hidle hidentity hgroup hstate hunit hcount hne
  have hok : s.ports.operandsOk = true :=
    (operandsFit_iff _ _ _ _).2 ⟨hidentity, hgroup, hstate, hunit⟩
  rw [exec_start hok ((s.ports.repeatOk_iff _).2 hcount), startEdge_accepted _ hidle hne,
    acceptStart_eq, frameOf_payload]
  rfl

/-- Settles O27: a count of 0 fits its port and is rejected. -/
theorem startRejected : Obligations.StartRejected := by
  intro s hidle hok hcount
  have hfit : s.ports.repeatOk s.params = true :=
    (s.ports.repeatOk_iff _).2 (hcount ▸ Nat.two_pow_pos _)
  rw [exec_start hok hfit, startEdge_rejected _ hidle hcount]
  rfl

/-- Settles O28: a START in a busy state is the edge that NOP plays. -/
theorem startWhileBusyIgnored : Obligations.StartWhileBusyIgnored := by
  intro s hbusy hok hfit
  rw [exec_start hok hfit, startEdge_busy _ _ _ ((SeqState.not_isIdle_iff _).2 hbusy), exec_nop]

/-- Settles O29: ABORT in IDLE leaves the registers, whatever `start` is. -/
theorem abortWhileIdle : Obligations.AbortWhileIdle := by
  intro start s hidle
  rw [exec_abort, abortEdge_idle _ _ hidle, State.withRegs_self]

/-- Settles O30: in immediate mode ABORT of a busy state is GO_IDLE. -/
theorem abortImmediate : Obligations.AbortImmediate := by
  intro start s hbusy hmode
  rw [exec_abort, abortEdge_immediate ((SeqState.not_isIdle_iff _).2 hbusy) hmode]

/-- Settles O32: RESET writes `Regs.reset` and no port. -/
theorem resetFromAnyState : Obligations.ResetFromAnyState := fun abort start s =>
  ⟨_, exec_reset abort start s, rfl, rfl, rfl, rfl, rfl⟩

/-- The phase end of a gap that no waiting abort cuts (rules R162 and R164). -/
theorem playEdge_gapEnd {p : Params} {r : Regs} (c : Sym) (hst : r.st = .gap) (hcut : r.gapUncut p)
    (hend : r.phaseEnds p) : playEdge p r c = gapPhaseEnd p r := by
  have hsend : ¬r.st = .send := by simp [hst]
  rw [playEdge_timer c (by rw [hst]; rfl) hcut, timerStep_phaseEnd p r hend]
  exact if_neg hsend

/-- Settles O25, by the two outcomes of a gap's phase end. -/
theorem gapEnd : Obligations.GapEnd := by
  intro s hst hend hcut
  have hedge := playEdge_gapEnd s.regs.currentSym hst (fun ⟨hmode, _, hpending⟩ =>
    hcut ⟨hmode, hpending⟩) hend
  rw [exec_nop, hedge]
  exact ⟨fun hrep => by rw [gapPhaseEnd_again _ _ hrep],
    fun hrep => by rw [gapPhaseEnd_done _ _ hrep]⟩

/-! A busy edge with an abort request in boundary mode (rule R157). -/

theorem advance_running {p : Params} {r r' : Regs} (c : Sym) (req : Bool)
    (hcut : ¬(p.abortAtBoundary = true ∧ r.st = .gap ∧ req = true))
    (htimer : timerStep p r = .running r') : advance p r c req = { r' with abortPending := req } := by
  rw [advance_timer p r c req hcut, htimer]

theorem advance_phaseEnd {p : Params} {r : Regs} (c : Sym) (req : Bool) (hst : r.st = .send)
    (hend : r.phaseEnds p) : advance p r c req = sendPhaseEnd p r c req := by
  rw [advance_timer p r c req (by simp [hst]), timerStep_phaseEnd p r hend]
  exact if_pos hst

/-- Settles O31: ABORT, and NOP with an abort pending, are both an `advance` with a request; its
cases are the gap, the two of TIMER_STEP, the phase end inside a symbol and the symbol boundary. -/
theorem abortAtBoundary : Obligations.AbortAtBoundary := by
  intro i s hmode hi
  have hexec : s.regs.st.isIdle = false →
      exec i s = .next (s.withRegs (advance s.params s.regs s.regs.currentSym true)) := by
    intro hbusy
    rcases hi with ⟨start, rfl⟩ | ⟨rfl, hpending⟩
    · rw [exec_abort, abortEdge_boundary hbusy hmode]
    · rw [exec_nop, playEdge_busy _ _ _ hbusy, hpending]
  have hsend : s.regs.st = .send → exec i s = .next (s.withRegs
      (advance s.params s.regs s.regs.currentSym true)) := fun hst => hexec (by rw [hst]; rfl)
  refine ⟨fun hst => ?_, fun hst htick => ?_, fun hst htick hunits => ?_, fun hst hend q hnext => ?_,
    fun hst hend hnext => ?_⟩
  · rw [hexec (by rw [hst]; rfl), advance_gap_abort _ _ _ hmode hst]
  · rw [hsend hst, advance_running _ _ (by simp [hst]) (timerStep_tick _ _ htick)]
  · rw [hsend hst, advance_running _ _ (by simp [hst]) (timerStep_unit _ _ htick hunits)]
  · rw [hsend hst, advance_phaseEnd _ _ hst hend, sendPhaseEnd_same _ _ _ _ _ hnext]
  · have hover := (nextPhase_cases s.params s.regs.currentSym s.regs.symIdx s.regs.phase).resolve_left
      fun ⟨q, hq⟩ => hnext q hq
    rw [hsend hst, advance_phaseEnd _ _ hst hend, sendPhaseEnd_abort _ _ _ hover hmode]

/-! Every edge. -/

/-- STEP at a busy edge that neither RESET nor an immediate ABORT ends. Its LOAD reads the symbol in
the frame, which within a symbol is the current one. -/
theorem stepR151_busy {p : Params} {r : Regs} {inp : Inputs} (hrst : inp.rst = false)
    (hbusy : r.st.isIdle = false) (hmode : inp.abort = true → p.abortAtBoundary = true) :
    stepR151 p r inp = advance p r r.currentSym (r.abortPending || inp.abort) := by
  have himm : ¬(!p.abortAtBoundary && inp.abort) = true := by
    cases habort : inp.abort <;> simp [habort, hmode]
  refine (if_neg (by simp [hrst])).trans <| (if_neg (by simp [hbusy])).trans <| (if_neg himm).trans ?_
  unfold advance sendPhaseEnd gapPhaseEnd
  refine if_congr Iff.rfl rfl ?_
  cases timerStep p r with
  | running r' => rfl
  | phaseEnd =>
    refine if_congr Iff.rfl ?_ rfl
    rw [← Regs.currentSym]
    cases nextPhase p r.currentSym r.symIdx r.phase with
    | gap => rfl
    | phase k q =>
      by_cases hk : k = r.symIdx
      · subst hk; rfl
      · simp [hk, loadFrom]

/-- An edge is STEP, command by command. -/
theorem edgeRegs_eq_stepR151 (p : Params) (r : Regs) (inp : Inputs) :
    edgeRegs p r inp = stepR151 p r inp := by
  rcases edgeRegs_cases p r inp with ⟨hrst, e⟩ | ⟨hrst, hidle, habort | hstart, e⟩ |
    ⟨hrst, hidle, habort, hstart, hcount, e⟩ | ⟨hrst, hidle, habort, hstart, hcount, e⟩ |
    ⟨hrst, hbusy, habort, hmode, e⟩ | ⟨hrst, hbusy, hmode, e⟩ <;> rw [e]
  · simp [stepR151, hrst]
  · simp [stepR151, hrst, hidle, habort]
  · simp [stepR151, hrst, hidle, hstart]
  · simp [stepR151, hrst, hidle, habort, hstart, hcount]
  · simp [stepR151, hrst, hidle, habort, hstart, hcount, acceptStart, loadFrom]
  · simp [stepR151, hrst, hbusy, habort, hmode, goIdle_eq_ended]
  · rw [stepR151_busy hrst hbusy hmode]

/-- Settles O36: the registers after an edge are `edgeRegs`, which is STEP. -/
theorem stepImplementsR151 : Obligations.StepImplementsR151 := by
  intro s hwf hclk hfit
  rw [step_edge s hwf hclk fun _ _ => hfit, edgeRegs_eq_stepR151]

/-- Settles O37: an edge and a moment without one both go on when the operands fit. -/
theorem everyStepCompletes : Obligations.EveryStepCompletes := by
  intro s hwf hok hcount
  cases hclk : s.ports.clk with
  | true => exact ⟨_, step_edge s hwf hclk fun _ _ _ => ⟨hok, hcount⟩⟩
  | false => exact ⟨_, step_noEdge s hwf hclk hok⟩

/-! Counter widths (rule R170). -/

/-- `TW` bits hold every value of `tick` (rule R25). -/
theorem unitCycles_le (p : Params) : p.unitCycles ≤ 2 ^ p.tw :=
  (clog2IsLeast p.unitCycles).1.trans (Nat.pow_le_pow_right (by omega) (le_max_right _ _))

theorem gapUnits_lt (p : Params) : p.gapUnits < 2 ^ p.uw :=
  ((le_max_right _ _).trans (le_max_right _ _)).trans_lt (maxUnits_lt p)

/-- The first cycle of a phase fits if its units do. -/
theorem Regs.fits_first {p : Params} {r : Regs} (hrep : r.repLeft < 2 ^ p.repW) (htick : r.tick = 0)
    (hunits : r.unitsLeft < 2 ^ p.uw) : r.fits p :=
  ⟨hrep, htick ▸ Nat.two_pow_pos _, hunits⟩

theorem Regs.fits_cleared (p : Params) {r : Regs} (hrep : r.repLeft = 0) (htick : r.tick = 0)
    (hunits : r.unitsLeft = 0) : r.fits p :=
  Regs.fits_first (hrep ▸ Nat.two_pow_pos _) htick (hunits ▸ Nat.two_pow_pos _)

/-- One unit fits, since `units_left` has room for a gap of at least one. -/
theorem one_lt_two_pow_uw {p : Params} (hwf : p.wf = true) : 1 < 2 ^ p.uw := by
  obtain ⟨-, -, -, hgap, -⟩ := p.wf_iff.1 hwf
  exact hgap.trans_lt (gapUnits_lt p)

/-- A busy edge keeps the widths, outcome by outcome of `advance_cases`. -/
theorem advance_fits {p : Params} (hwf : p.wf = true) {r : Regs} (c : Sym) (req : Bool)
    (hbusy : r.st = .send ∨ r.st = .gap) (h : r.fits p) : (advance p r c req).fits p := by
  obtain ⟨-, -, -, hgap, -⟩ := p.wf_iff.1 hwf
  obtain ⟨hrep, htick, hunits⟩ := h
  have hone := one_lt_two_pow_uw hwf
  have hcycles := unitCycles_le p
  rcases advance_cases p r c req hbusy with ⟨-, -, e⟩ | ⟨hlt, e⟩ | ⟨-, -, e⟩ | ⟨-, -, q, -, e⟩ |
    ⟨-, -, -, e⟩ | ⟨-, -, -, e⟩ | ⟨-, -, -, e⟩ <;> rw [e]
  · exact Regs.fits_cleared p rfl rfl rfl
  · exact ⟨hrep, by dsimp only; omega, hunits⟩
  · exact Regs.fits_first hrep rfl (by dsimp only; omega)
  · exact Regs.fits_first hrep rfl (lut_units_lt p hgap c q.toNat)
  · split
    · exact Regs.fits_first hrep rfl hone
    · exact Regs.fits_first hrep rfl (gapUnits_lt p)
  · exact Regs.fits_cleared p rfl rfl rfl
  · exact Regs.fits_first (by simp only [Regs.atPhase_repLeft]; omega) rfl hone

/-- Settles O43: RESET and GO_IDLE clear the counters, a START's count fits its port, and a busy
edge keeps the widths. -/
theorem stepKeepsCounterWidths : Obligations.StepKeepsCounterWidths := by
  intro s t hwf h hstep
  obtain ⟨-, hparams, hregs⟩ := step_regs hstep
  rw [hparams]
  rcases hregs with ⟨-, hregs⟩ | ⟨-, hfit, hregs⟩ <;> rw [hregs]
  · exact h
  rcases edgeRegs_cases s.params s.regs s.ports with ⟨-, e⟩ | ⟨-, -, -, e⟩ | ⟨-, -, -, -, -, e⟩ |
    ⟨hrst, -, habort, hstart, -, e⟩ | ⟨-, -, -, -, e⟩ | ⟨-, hbusy, -, e⟩ <;> rw [e]
  · exact Regs.fits_cleared _ rfl rfl rfl
  · exact h
  · exact h
  · have hcount := (s.ports.repeatOk_iff _).1 (hfit hrst habort hstart).2
    rw [acceptStart_eq]
    exact Regs.fits_first (Nat.sub_lt_of_lt hcount) rfl (one_lt_two_pow_uw hwf)
  · exact Regs.fits_cleared _ rfl rfl rfl
  · exact advance_fits hwf _ _ ((SeqState.not_isIdle_iff _).1 hbusy) h

/-! The ways out of a transmission, and the line at rest (rules R168 and R169). -/

/-- A busy edge that leaves the transmission is GO_IDLE. -/
theorem advance_leaves {p : Params} {r : Regs} {c : Sym} {req : Bool}
    (hbusy : r.st = .send ∨ r.st = .gap) (hidle : (advance p r c req).st.isIdle = true) :
    advance p r c req = r.ended .done ∨ advance p r c req = r.ended .aborted := by
  have hstays : r.st.isIdle = false := (SeqState.not_isIdle_iff _).2 hbusy
  rcases advance_cases p r c req hbusy with ⟨-, -, e⟩ | ⟨-, e⟩ | ⟨-, -, e⟩ | ⟨-, -, q, -, e⟩ |
    ⟨hst, -, -, e⟩ | ⟨-, -, -, e⟩ | ⟨-, -, -, e⟩
  · exact .inr e
  · simp [e, hstays] at hidle
  · simp [e, hstays] at hidle
  · simp [e, hstays] at hidle
  · rw [e] at hidle
    split at hidle
    · simp [hstays] at hidle
    · cases hidle
  · exact .inl e
  · rw [e] at hidle
    cases hidle

/-- Settles O50: the edges that end busy are RESET, an immediate ABORT and a busy edge's GO_IDLE. -/
theorem leavingTransmissionForcesIdle : Obligations.LeavingTransmissionForcesIdle := by
  intro s t hbusy hstep hidle
  have hbusy : s.regs.st.isIdle = false := by simpa using hbusy
  have hidle : t.regs.st.isIdle = true := by simpa using hidle
  suffices hout : (s.ports.clk = true ∧ s.ports.rst = true ∧ t.regs = Regs.reset) ∨
      (s.ports.clk = true ∧ s.ports.rst = false ∧
        (t.regs = s.regs.ended .done ∨ t.regs = s.regs.ended .aborted)) by
    refine ⟨?_, hout⟩
    rcases hout with ⟨-, -, e⟩ | ⟨-, -, e | e⟩ <;> rw [State.tx_eq, e] <;> rfl
  obtain ⟨-, -, ⟨-, hregs⟩ | ⟨hclk, -, hregs⟩⟩ := step_regs hstep
  · rw [hregs, hbusy] at hidle
    cases hidle
  rcases edgeRegs_cases s.params s.regs s.ports with ⟨hrst, e⟩ | ⟨-, hrest, -⟩ | ⟨-, hrest, -⟩ |
    ⟨-, hrest, -⟩ | ⟨hrst, -, -, -, e⟩ | ⟨hrst, -, -, e⟩
  · exact .inl ⟨hclk, hrst, hregs.trans e⟩
  · simp [hbusy] at hrest
  · simp [hbusy] at hrest
  · simp [hbusy] at hrest
  · exact .inr ⟨hclk, hrst, .inr (hregs.trans e)⟩
  · rw [hregs.trans e] at hidle ⊢
    exact .inr ⟨hclk, hrst, advance_leaves ((SeqState.not_isIdle_iff _).1 hbusy) hidle⟩

theorem steps_succ {s t : State} (h : step s = .next t) (n : Nat) : steps (n + 1) s = steps n t := by
  simp [steps, h]

/-- The first of one step or more goes on. -/
theorem steps_succ_some {s t : State} {n : Nat} (h : steps (n + 1) s = some t) :
    ∃ u, step s = .next u ∧ steps n u = some t := by
  cases hstep : step s with
  | next u => exact ⟨u, rfl, steps_succ hstep n ▸ h⟩
  | fault f => simp [steps, hstep] at h
  | refused r => simp [steps, hstep] at h

/-- Every state that a run reaches keeps the invariants of rule R36. -/
theorem steps_keep_inv {n : Nat} {s t : State} (hinv : s.Inv) (h : steps n s = some t) : t.Inv := by
  induction n generalizing s with
  | zero => exact Option.some.inj h ▸ hinv
  | succ n ih =>
    obtain ⟨u, hstep, hrest⟩ := steps_succ_some h
    exact ih (stepKeepsInvariant s u hinv hstep) hrest

/-- Settles O51: the invariants have the line low in IDLE, and every step keeps them. -/
theorem lineLowAtRest : Obligations.LineLowAtRest := by
  intro n s t hinv hsteps hidle
  obtain ⟨hwf, hregs⟩ := steps_keep_inv hinv hsteps
  have hst := hregs.st_eq_idle (by simpa using hidle)
  obtain ⟨hline, -⟩ := (Regs.inv_idle hwf hst).1 hregs
  exact hline

/-- An accepted START is an edge that loads the first phase of `B` (rule R154). -/
theorem State.accepts.step {s : State} (h : s.accepts) :
    step s = .next (s.withRegs (acceptStart s.params s.regs s.ports)).nextInputs := by
  obtain ⟨hwf, hidle, hclk, hrst, habort, hstart, hok, hfit, hcount⟩ := h
  have hedge : edgeRegs s.params s.regs s.ports = acceptStart s.params s.regs s.ports := by
    simp [edgeRegs, hrst, habort, hstart, startEdge_accepted _ hidle (Nat.one_le_iff_ne_zero.1 hcount)]
  rw [step_edge s hwf hclk fun _ _ _ => ⟨hok, hfit⟩, hedge]

/-- Settles O54: the completing edge ends in IDLE with the host's START at the ports, which is
accepted. -/
theorem startHeldRestarts : Obligations.StartHeldRestarts := by
  intro s inp rest hwf hst hrep hend hcut hports hhost hinp hstart hcount
  obtain ⟨hclk, hrst, habort, hfit⟩ := hinp
  have hdone : playEdge s.params s.regs s.regs.currentSym = s.regs.ended .done := by
    rw [playEdge_gapEnd _ hst (fun ⟨hmode, _, hpending⟩ => hcut ⟨hmode, hpending⟩) hend,
      gapPhaseEnd_done _ _ hrep]
  have hstep := step_undisturbed hwf (by rw [hst]; rfl) hports
  rw [hdone] at hstep
  generalize ht : (s.withRegs (s.regs.ended .done)).nextInputs = t at hstep
  have hparams : t.params = s.params := by rw [← ht]; simp
  have hregs : t.regs = s.regs.ended .done := by rw [← ht]; simp
  have hnow : t.ports = inp := by
    rw [← ht]
    exact (State.nextInputs_cons (s.withRegs (s.regs.ended .done)) inp rest hhost).1
  have hacc : t.accepts := State.accepts_of_start (by rwa [hparams]) (by rwa [hnow])
    (by rw [hregs]; rfl) (by rwa [hnow]) (by rwa [hnow]) (by rwa [hnow]) (by rwa [hnow])
    (by rw [hnow, hparams]; exact hfit hstart)
  refine ⟨t, _, hstep, by rw [State.busy_eq, hregs]; rfl, by rw [hregs]; rfl, hacc.step, ?_⟩
  simp [acceptStart_eq, hnow, SeqState.isIdle]

/-! The levels that a phase and a symbol have left to show, edge by edge. -/

/-- The levels of the phase from this cycle on. -/
def Regs.phaseLeft (p : Params) (r : Regs) : List Bool :=
  List.replicate (r.unitsLeft * p.unitCycles - r.tick) r.line

theorem Regs.phaseLeft_first (p : Params) {r : Regs} (htick : r.tick = 0) :
    r.phaseLeft p = List.replicate (r.unitsLeft * p.unitCycles) r.line := by
  rw [Regs.phaseLeft, htick, Nat.sub_zero]

theorem Regs.phaseLeft_cons {p : Params} {r r' : Regs} (hline : r'.line = r.line)
    (hcycles : r.unitsLeft * p.unitCycles - r.tick = r'.unitsLeft * p.unitCycles - r'.tick + 1) :
    r.phaseLeft p = r.line :: r'.phaseLeft p := by
  rw [Regs.phaseLeft, Regs.phaseLeft, hcycles, hline, List.replicate_succ]

/-- TIMER_STEP shows one level of the phase: it goes on to the levels left, or this was the last. -/
theorem timerStep_phaseLeft {p : Params} {r : Regs} (hunits : 1 ≤ r.unitsLeft)
    (htick : r.tick < p.unitCycles) :
    (∃ tick units, tick < p.unitCycles ∧ 1 ≤ units ∧
      timerStep p r = .running { r with tick := tick, unitsLeft := units } ∧
      r.phaseLeft p = r.line :: { r with tick := tick, unitsLeft := units }.phaseLeft p) ∨
    (r.phaseEnds p ∧ r.phaseLeft p = [r.line]) := by
  obtain ⟨more, hmore⟩ := Nat.exists_eq_add_of_le' hunits
  have hcycles : r.unitsLeft * p.unitCycles = more * p.unitCycles + p.unitCycles := by
    rw [hmore, Nat.succ_mul]
  rcases timerStep_cases p r with ⟨hlt, e⟩ | ⟨hlast, hone, e⟩ | ⟨hend, -⟩
  · exact .inl ⟨r.tick + 1, r.unitsLeft, by omega, hunits, e,
      Regs.phaseLeft_cons rfl (by dsimp only; omega)⟩
  · exact .inl ⟨0, r.unitsLeft - 1, by omega, by omega, e,
      Regs.phaseLeft_cons rfl (by dsimp only; rw [hcycles, hmore, Nat.add_sub_cancel]; omega)⟩
  · have hend' := hend
    obtain ⟨hlast, hone⟩ := hend'
    obtain rfl : more = 0 := by omega
    refine .inr ⟨hend, ?_⟩
    rw [Regs.phaseLeft, show r.unitsLeft * p.unitCycles - r.tick = 1 by omega, List.replicate_one]

/-- A cycle of a phase of the symbol at the program counter. -/
structure Regs.inSymbol (p : Params) (r : Regs) : Prop where
  st : r.st = .send
  phase : r.phase.toNat < nph p r.currentSym
  units : 1 ≤ r.unitsLeft
  tick : r.tick < p.unitCycles

/-- The levels of the symbol from this cycle on. -/
def Regs.symbolLeft (p : Params) (r : Regs) : List Bool :=
  r.phaseLeft p ++ samples p (waveFrom p r.currentSym (r.phase.toNat + 1))

/-- From `r` to `r'` is one cycle of a symbol that goes on. -/
structure Regs.symbolGoesOn (p : Params) (r r' : Regs) : Prop where
  inSymbol : r'.inSymbol p
  frame : r'.frame = r.frame
  symIdx : r'.symIdx = r.symIdx
  repLeft : r'.repLeft = r.repLeft
  left : r.symbolLeft p = r.line :: r'.symbolLeft p

/-- A phase end before the symbol's last loads the symbol's next phase. -/
theorem Regs.inSymbol.nextPhase {p : Params} (hwf : p.wf = true) {r : Regs} (h : r.inSymbol p)
    (hnext : r.hasNextPhase p) (hlast : r.phaseLeft p = [r.line]) (req : Bool) :
    r.symbolGoesOn p { r.nextPhaseLoaded p with abortPending := req } := by
  obtain ⟨hunit, -⟩ := p.wf_iff.1 hwf
  have hphase := Regs.nextPhaseLoaded_phase hnext
  have hlt : (r.nextPhaseLoaded p).phase.toNat < nph p r.currentSym := hphase ▸ hnext.1
  have htimed := lut_timed hwf hnext.2 hlt
  refine ⟨⟨h.st, hlt, htimed, hunit⟩, rfl, rfl, rfl, ?_⟩
  rw [Regs.symbolLeft, hlast, ← hphase, waveFrom_timed hlt htimed, samples_cons, Regs.symbolLeft,
    Regs.phaseLeft_first p (by rfl)]
  rfl

/-- One busy edge within a symbol, whatever the request: the symbol goes on, or this was its last
cycle. -/
theorem Regs.inSymbol.advance {p : Params} (hwf : p.wf = true) {r : Regs} (h : r.inSymbol p)
    (req : Bool) :
    (r.symbolGoesOn p (advance p r r.currentSym req) ∧
      (Machine.advance p r r.currentSym req).abortPending = req) ∨
    (r.phaseEnds p ∧ Machine.nextPhase p r.currentSym r.symIdx r.phase = afterSymbol r.symIdx ∧
      r.symbolLeft p = [r.line]) := by
  have hclosed := nextPhase_eq hwf r.currentSym r.symIdx h.phase
  rcases timerStep_phaseLeft h.units h.tick with ⟨tick, units, htick, hunits, htimer, hleft⟩ |
    ⟨hend, hlast⟩
  · refine .inl ?_
    rw [advance_running _ _ (by simp [h.st]) htimer]
    exact ⟨⟨⟨h.st, h.phase, hunits, htick⟩, rfl, rfl, rfl,
      congrArg (· ++ samples p (waveFrom p r.currentSym (r.phase.toNat + 1))) hleft⟩, rfl⟩
  · by_cases hnext : r.hasNextPhase p
    · rw [if_pos hnext] at hclosed
      rw [advance_phaseEnd _ _ h.st hend, sendPhaseEnd_same _ _ _ _ _ hclosed]
      exact .inl ⟨h.nextPhase hwf hnext hlast req, rfl⟩
    · rw [if_neg hnext] at hclosed
      exact .inr ⟨hend, hclosed, by rw [Regs.symbolLeft, hlast, waveFrom_end hnext]; rfl⟩

/-! Inputs cycle by cycle. -/

/-- The inputs of the current cycle and of those after it, `n` in all, are as `P` says. -/
def State.inputsFor (P : Inputs → Prop) (s : State) (n : Nat) : Prop :=
  ∀ inp ∈ (s.ports :: s.host).take n, P inp

theorem State.inputsFor_succ (P : Inputs → Prop) (s : State) (n : Nat) :
    s.inputsFor P (n + 1) ↔ P s.ports ∧ ∀ inp ∈ s.host.take n, P inp := by
  simp [State.inputsFor]

/-- The next inputs are the host's next records, or NOPs when its list is at its end. -/
theorem State.nextInputs_inputs (s : State) :
    s.nextInputs.ports :: s.nextInputs.host = if s.host = [] then [s.ports.quiet] else s.host := by
  obtain ⟨params, regs, ports, host⟩ := s
  cases host <;> rfl

theorem State.inputsFor_next {P : Inputs → Prop} (hquiet : ∀ inp : Inputs, P inp.quiet) {s : State}
    {n : Nat} (h : ∀ inp ∈ s.host.take n, P inp) (r : Regs) :
    (s.withRegs r).nextInputs.inputsFor P n := by
  intro inp hinp
  rw [State.nextInputs_inputs] at hinp
  split at hinp
  · rw [List.mem_singleton.1 (List.mem_of_mem_take hinp)]
    exact hquiet s.ports
  · exact h inp hinp

/-! A boundary abort during a symbol (rule R157). -/

/-- An edge that does no more than ask for an abort in boundary mode. -/
abbrev Inputs.mayAbort (p : Params) (inp : Inputs) : Prop :=
  inp.undisturbed p ∨ (inp.clk = true ∧ inp.rst = false ∧ inp.abort = true)

/-- A busy edge in boundary mode adds ABORT to the request pending. -/
theorem step_mayAbort {s : State} (hwf : s.params.wf = true) (hmode : s.params.abortAtBoundary = true)
    (hbusy : s.regs.st.isIdle = false) (hports : s.ports.mayAbort s.params) :
    step s = .next (s.withRegs (advance s.params s.regs s.regs.currentSym
      (s.regs.abortPending || s.ports.abort))).nextInputs := by
  have hclk : s.ports.clk = true := hports.elim (·.1) (·.1)
  have hrst : s.ports.rst = false := hports.elim (·.2.1) (·.2.1)
  have hfit : s.ports.rst = false → s.ports.abort = false → s.ports.start = true →
      s.ports.operandsOk = true ∧ s.ports.repeatOk s.params = true := by
    intro _ habort hstart
    rcases hports with ⟨-, -, -, hfit⟩ | ⟨-, -, habort'⟩
    · exact hfit hstart
    · simp [habort] at habort'
  rw [step_edge s hwf hclk hfit, edgeRegs_eq_stepR151, stepR151_busy hrst hbusy fun _ => hmode]

/-- In boundary mode an abort is pending or comes at one of the next `n` edges, which do no more. -/
structure State.abortsWithin (s : State) (n : Nat) : Prop where
  wf : s.params.wf = true
  mode : s.params.abortAtBoundary = true
  inputs : s.inputsFor (Inputs.mayAbort s.params) n
  abort : s.regs.abortPending = true ∨ ∃ inp ∈ (s.ports :: s.host).take n, inp.abort = true

theorem State.abortsWithin.now {s : State} (h : s.abortsWithin 1) :
    (s.regs.abortPending || s.ports.abort) = true := by
  simpa using h.abort

/-- An edge leaves an abort to come, unless it drops the request. -/
theorem State.abortsWithin.step {s : State} {n : Nat} (h : s.abortsWithin (n + 1))
    (hbusy : s.regs.st.isIdle = false) : ∃ t, step s = .next t ∧ t.params = s.params ∧
      t.regs = advance s.params s.regs s.regs.currentSym (s.regs.abortPending || s.ports.abort) ∧
      (t.regs.abortPending = (s.regs.abortPending || s.ports.abort) → t.abortsWithin n) := by
  obtain ⟨hnow, hlater⟩ := (s.inputsFor_succ _ _).1 h.inputs
  refine ⟨_, step_mayAbort h.wf h.mode hbusy hnow, by simp, by simp,
    fun hpending => ⟨by simp [h.wf], by simp [h.mode], ?_, ?_⟩⟩
  · rw [State.nextInputs_params]
    exact State.inputsFor_next (fun inp => .inl (inp.quiet_undisturbed _)) hlater _
  rw [hpending, State.nextInputs_inputs]
  rcases h.abort with hnow | ⟨inp, hmem, habort⟩
  · exact .inl (by simp [hnow])
  rw [List.take_succ_cons] at hmem
  rcases List.mem_cons.1 hmem with rfl | hlater
  · exact .inl (by simp [habort])
  · have hhost : s.host ≠ [] := by rintro hnil; simp [hnil] at hlater
    exact .inr ⟨inp, by rwa [State.withRegs_host, if_neg hhost], habort⟩

/-- From any cycle of a symbol with an abort to come before its end: the symbol is played to its
end, where the transmission ends ABORTED; by induction on the cycles left. -/
theorem Plays.symbol_aborted {n : Nat} {s : State} (h : s.regs.inSymbol s.params)
    (hlength : (s.regs.symbolLeft s.params).length = n) (habort : s.abortsWithin n) :
    ∃ t, Plays s (s.regs.symbolLeft s.params) t ∧ t.regs = s.regs.ended .aborted := by
  induction n generalizing s with
  | zero =>
    rcases h.advance habort.wf false with ⟨hgoes, -⟩ | ⟨-, -, hleft⟩
    · simp [hgoes.left] at hlength
    · simp [hleft] at hlength
  | succ n ih =>
    obtain ⟨t, hstep, hparams, hregs, hmore⟩ := habort.step (by rw [h.st]; rfl)
    rcases h.advance habort.wf (s.regs.abortPending || s.ports.abort) with
      ⟨hgoes, hpending⟩ | ⟨hend, hnext, hleft⟩
    · rw [← hregs] at hgoes hpending
      rw [hgoes.left] at hlength ⊢
      have hrest := ih (s := t) (by rw [hparams]; exact hgoes.inSymbol)
        (by rw [hparams]; exact Nat.succ.inj hlength) (hmore hpending)
      rw [hparams] at hrest
      obtain ⟨u, hplays, hended⟩ := hrest
      exact ⟨u, .cycle hstep hplays, by rw [hended, Regs.ended, hgoes.frame]; rfl⟩
    · obtain rfl : n = 0 := by simpa [hleft] using hlength.symm
      rw [habort.now, advance_phaseEnd _ _ h.st hend,
        sendPhaseEnd_abort _ _ _ hnext habort.mode] at hregs
      exact ⟨t, by rw [hleft]; exact .cycle hstep (.nil t), hregs⟩

theorem symbolWave_eq (p : Params) (c : Sym) : symbolWave p c = (true, 1) :: waveFrom p c 1 := by
  have hfirst : 0 < nph p c := by cases c <;> exact Nat.succ_pos _
  rw [← waveFrom_zero, waveFrom_timed hfirst (by rw [lut_first]), lut_first]

/-- A symbol's first cycle has the whole recipe left. -/
theorem Regs.symbolLeft_first (p : Params) (r : Regs) (k : SymIdx) :
    (r.atPhase k 0#2 true 1).symbolLeft p = samples p (symbolWave p (symAt r.frame k)) := by
  rw [symbolWave_eq, samples_cons, Regs.symbolLeft, Regs.phaseLeft_first p (by rfl)]
  rfl

theorem Regs.inSymbol_first {p : Params} (hwf : p.wf = true) {r : Regs} (hst : r.st = .send)
    (k : SymIdx) : (r.atPhase k 0#2 true 1).inSymbol p := by
  obtain ⟨hunit, -⟩ := p.wf_iff.1 hwf
  have hfirst : ∀ c, 0 < nph p c := fun c => by cases c <;> exact Nat.succ_pos _
  exact ⟨hst, hfirst _, le_rfl, hunit⟩

/-- Settles O22: the symbol has its whole recipe left, and an abort comes before its end. -/
theorem boundaryAbortFinishesSymbol : Obligations.BoundaryAbortFinishesSymbol := by
  intro s hwf hmode hst hfirst _ hinputs habort
  obtain ⟨hunit, -⟩ := s.params.wf_iff.1 hwf
  have hlength : (samples s.params (symbolWave s.params s.regs.currentSym)).length =
      symbolUnits s.params s.regs.currentSym * s.params.unitCycles := by
    rw [samples_length, waveUnits_symbolWave]
  have hwave : s.regs.symbolLeft s.params =
      samples s.params (symbolWave s.params s.regs.currentSym) := by
    rw [hfirst]
    exact Regs.symbolLeft_first s.params s.regs s.regs.symIdx
  obtain ⟨t, hplays, hregs⟩ := Plays.symbol_aborted
    (hfirst ▸ Regs.inSymbol_first hwf hst s.regs.symIdx) (by rw [hwave, hlength])
    ⟨hwf, hmode, hinputs, .inr habort⟩
  rw [hwave] at hplays
  refine ⟨?_, t, hlength ▸ hplays.steps, hregs⟩
  rw [← hlength]
  refine hplays.tx_txTrace (List.ne_nil_of_length_pos ?_)
  rw [hlength]
  exact Nat.mul_pos (symbolUnits_pos _ _) hunit

/-! A transmission: the levels left to show, edge by edge (rule R171). -/

/-- The waveform of an attempt from symbol `k` of the frame on, the gap at its end. -/
def attemptFrom (p : Params) (f : Frame) (k : Nat) : List (Bool × Nat) :=
  ((symbolsOf f).drop k).flatMap (symbolWave p) ++ [(false, p.gapUnits)]

@[simp] theorem symbolsOf_length (f : Frame) : (symbolsOf f).length = 34 := by simp [symbolsOf]

theorem attemptFrom_symbol (p : Params) (f : Frame) {k : SymIdx} (hk : k ≤ 33#6) :
    attemptFrom p f k.toNat = symbolWave p (symAt f k) ++ attemptFrom p f (k.toNat + 1) := by
  have hlt : k.toNat < (symbolsOf f).length := by
    rw [symbolsOf_length]
    bv_omega
  have hsym : (symbolsOf f)[k.toNat] = symAt f k := by simp [symbolsOf]
  rw [attemptFrom, List.drop_eq_getElem_cons hlt, hsym, List.flatMap_cons, List.append_assoc]
  rfl

theorem attemptFrom_gap (p : Params) (f : Frame) : attemptFrom p f 34 = [(false, p.gapUnits)] := by
  rw [attemptFrom, List.drop_eq_nil_of_le (symbolsOf_length f).le]
  rfl

theorem symbolWave_dataSym {p : Params} (hwf : p.wf = true) (b : Bool) :
    symbolWave p (dataSym b) = bitWave p b := by
  obtain ⟨-, hlong, -⟩ := p.wf_iff.1 hwf
  have hne : p.longUnits ≠ 0 := by omega
  cases b <;> simp [symbolWave, recipe, dataSym, bitWave, hne]

/-- The symbols of a payload's frame play `W(f)`, and then the gap (rules R131 and R165). -/
theorem attemptFrom_frameOf {p : Params} (hwf : p.wf = true) (P : Payload) :
    attemptFrom p (frameOf P) 0 = attemptWave p (frameOf P) := by
  obtain ⟨-, -, hlow, -⟩ := p.wf_iff.1 hwf
  have hne : p.startLowUnits ≠ 0 := by omega
  have hB : symbolWave p .B = [(true, 1), (false, p.startLowUnits)] := by
    simp [symbolWave, recipe, hne]
  have hdata : (dataSymbols P).flatMap (symbolWave p) =
      ((List.range 32).map fun j => bitWave p ((frameOf P).getLsbD (2 * (j + 1)))).flatten := by
    rw [dataSymbols, List.flatMap_def, List.map_map]
    refine congrArg List.flatten (List.map_congr_left fun j hj => ?_)
    have hj : j < 32 := List.mem_range.1 hj
    rw [(frameOf_data_bits P (j + 1) (by omega) (by omega)).2, show 32 - (j + 1) = 31 - j by omega]
    exact symbolWave_dataSym hwf _
  have hE : symbolWave p .E = [(true, 1)] := rfl
  rw [attemptFrom, attemptWave, frameWave, symbolsOf_frameOf, List.drop_zero, frameSymbols,
    List.flatMap_cons, List.flatMap_append, List.flatMap_singleton, hB, hdata, hE]
  simp only [List.append_assoc]

@[simp] theorem samples_append (p : Params) (w v : List (Bool × Nat)) :
    samples p (w ++ v) = samples p w ++ samples p v := by
  simp [samples]

/-- The levels of the attempts after the current one. -/
def Regs.attemptsLeft (p : Params) (r : Regs) : List Bool :=
  (List.replicate r.repLeft (samples p (attemptFrom p r.frame 0))).flatten

/-- The levels of the transmission from this cycle on. -/
def Regs.levelsLeft (p : Params) (r : Regs) : List Bool :=
  if r.st = .send then
    r.symbolLeft p ++ (samples p (attemptFrom p r.frame (r.symIdx.toNat + 1)) ++ r.attemptsLeft p)
  else r.phaseLeft p ++ r.attemptsLeft p

theorem Regs.levelsLeft_send (p : Params) {r : Regs} (hst : r.st = .send) :
    r.levelsLeft p = r.symbolLeft p ++
      (samples p (attemptFrom p r.frame (r.symIdx.toNat + 1)) ++ r.attemptsLeft p) := if_pos hst

theorem Regs.levelsLeft_gap (p : Params) {r : Regs} (hst : r.st = .gap) :
    r.levelsLeft p = r.phaseLeft p ++ r.attemptsLeft p := if_neg (by simp [hst])

/-- A symbol's first cycle has the attempt from that symbol on left, and the attempts after it. -/
theorem Regs.levelsLeft_first (p : Params) {r : Regs} (hst : r.st = .send) {k : SymIdx}
    (hk : k ≤ 33#6) : (r.atPhase k 0#2 true 1).levelsLeft p =
      samples p (attemptFrom p r.frame k.toNat) ++ r.attemptsLeft p := by
  rw [Regs.levelsLeft_send p (r := r.atPhase k 0#2 true 1) hst, Regs.symbolLeft_first,
    attemptFrom_symbol p r.frame hk, samples_append, List.append_assoc]
  rfl

/-- A gap's first cycle. -/
theorem Regs.levelsLeft_atGap (p : Params) (r : Regs) :
    (r.atGap p.gapUnits).levelsLeft p =
      samples p [(false, p.gapUnits)] ++ r.attemptsLeft p := by
  rw [Regs.levelsLeft_gap p (by rfl), Regs.phaseLeft_first p (by rfl), samples_cons, samples_nil,
    List.append_nil]
  rfl

/-- The transmission goes on from `r` to `r'`, one cycle later. -/
structure Regs.goesOn (p : Params) (r r' : Regs) : Prop where
  busy : r'.st.isIdle = false
  pending : r'.abortPending = false
  left : r.levelsLeft p = r.line :: r'.levelsLeft p

/-- An undisturbed edge in SEND: the next cycle of the symbol, the next symbol, or the gap. -/
theorem playEdge_send_goesOn {p : Params} (hwf : p.wf = true) {r : Regs} (h : r.inSymbol p)
    (hk : r.symIdx ≤ 33#6) (hpending : r.abortPending = false) :
    r.goesOn p (playEdge p r r.currentSym) := by
  rcases h.advance hwf r.abortPending with ⟨hgoes, hreq⟩ | ⟨hend, hnext, hlast⟩
  · rw [← playEdge_busy p r _ (by rw [h.st]; rfl)] at hgoes hreq
    refine ⟨by rw [hgoes.inSymbol.st]; rfl, hreq.trans hpending, ?_⟩
    rw [Regs.levelsLeft_send p h.st, Regs.levelsLeft_send p hgoes.inSymbol.st, hgoes.left,
      Regs.attemptsLeft, Regs.attemptsLeft, hgoes.frame, hgoes.symIdx, hgoes.repLeft, List.cons_append]
  · rw [playEdge_symbolEnd h.st hend hnext, if_neg (by simp [hpending])]
    have hleft := Regs.levelsLeft_send p h.st
    rw [hlast, List.singleton_append] at hleft
    split_ifs with hlt
    · have hsucc : (r.symIdx + 1#6).toNat = r.symIdx.toNat + 1 := by bv_omega
      refine ⟨by rw [Regs.atPhase_st, h.st]; rfl, hpending, ?_⟩
      rw [hleft, Regs.levelsLeft_first p h.st (by bv_omega), hsucc]
    · have hlast : r.symIdx.toNat + 1 = 34 := by bv_omega
      refine ⟨rfl, hpending, ?_⟩
      rw [hleft, hlast, attemptFrom_gap, Regs.levelsLeft_atGap]

/-- An undisturbed edge in GAP: the next cycle of the gap, the next attempt, or the end. -/
theorem playEdge_gap_goesOn {p : Params} {r : Regs} (hst : r.st = .gap) (hunits : 1 ≤ r.unitsLeft)
    (htick : r.tick < p.unitCycles) (hpending : r.abortPending = false) :
    r.goesOn p (playEdge p r r.currentSym) ∨
    (playEdge p r r.currentSym = r.ended .done ∧ r.levelsLeft p = [r.line]) := by
  have hcut : r.gapUncut p := by simp [Regs.gapUncut, hpending]
  have hleft := Regs.levelsLeft_gap p hst
  rcases timerStep_phaseLeft hunits htick with ⟨tick, units, -, -, htimer, hphase⟩ | ⟨hend, hphase⟩
  · rw [playEdge_busy p r _ (by rw [hst]; rfl), advance_running _ _ hcut htimer]
    refine .inl ⟨by rw [hst]; rfl, hpending, ?_⟩
    rw [hleft, hphase, Regs.levelsLeft_gap p (by exact hst)]
    rfl
  rw [playEdge_gapEnd _ hst hcut hend]
  rw [hphase, List.singleton_append, Regs.attemptsLeft] at hleft
  rcases Nat.eq_zero_or_pos r.repLeft with hzero | hmore
  · exact .inr ⟨gapPhaseEnd_done p r hzero, by rw [hleft, hzero]; rfl⟩
  · obtain ⟨n, hn⟩ := Nat.exists_eq_add_of_le' hmore
    rw [gapPhaseEnd_again p r hmore]
    refine .inl ⟨rfl, hpending, ?_⟩
    rw [hleft, Regs.levelsLeft_first p (by rfl) (by decide), hn, List.replicate_succ, List.flatten_cons]
    rfl

/-- A machine that transmits, with the invariants of rule R36 and no abort pending. -/
structure State.sending (s : State) : Prop where
  inv : s.Inv
  busy : s.regs.st.isIdle = false
  pending : s.regs.abortPending = false

/-- The levels of the transmission, from this cycle on. -/
def State.levelsLeft (s : State) : List Bool := s.regs.levelsLeft s.params

/-- A busy state's timer is within its phase (rule R36). -/
theorem State.sending.timing {s : State} (h : s.sending) :
    1 ≤ s.regs.unitsLeft ∧ s.regs.tick < s.params.unitCycles := by
  rcases (SeqState.not_isIdle_iff _).1 h.busy with hst | hst
  · obtain ⟨⟨-, -, -, -, hunits, -, htick, -⟩, -⟩ := (Regs.inv_send hst).1 h.inv.2
    exact ⟨hunits, htick⟩
  · obtain ⟨⟨-, hunits, -, htick, -⟩, -⟩ := (Regs.inv_gap hst).1 h.inv.2
    exact ⟨hunits, htick⟩

/-- The first of the levels left is the one shown in this cycle. -/
theorem State.sending.head {s : State} (h : s.sending) : s.levelsLeft[0]? = some s.tx := by
  obtain ⟨hunits, htick⟩ := h.timing
  have hphase : ∃ later, s.regs.phaseLeft s.params = s.regs.line :: later := by
    rcases timerStep_phaseLeft hunits htick with ⟨_, _, -, -, -, e⟩ | ⟨-, e⟩ <;> exact ⟨_, e⟩
  obtain ⟨later, e⟩ := hphase
  rcases (SeqState.not_isIdle_iff _).1 h.busy with hst | hst
  · rw [State.levelsLeft, Regs.levelsLeft_send _ hst, Regs.symbolLeft, e]
    rfl
  · rw [State.levelsLeft, Regs.levelsLeft_gap _ hst, e]
    rfl

/-- One undisturbed cycle of a transmission shows the first of the levels left; after the last of
them the transmission is done. -/
theorem State.sending.step {s : State} {m : Nat} (h : s.sending) (hinputs : s.undisturbedFor (m + 1)) :
    ∃ t, step s = .next t ∧ t.params = s.params ∧ t.undisturbedFor m ∧
      ((t.sending ∧ s.levelsLeft = s.tx :: t.levelsLeft) ∨
        (t.regs = s.regs.ended .done ∧ s.levelsLeft = [s.tx])) := by
  have hstep := step_undisturbed h.inv.1 h.busy ((s.undisturbedFor_succ m).1 hinputs).1
  refine ⟨_, hstep, by simp, State.undisturbedFor_next hinputs _, ?_⟩
  obtain ⟨hunits, htick⟩ := h.timing
  have hgo : s.regs.goesOn s.params (playEdge s.params s.regs s.regs.currentSym) ∨
      (playEdge s.params s.regs s.regs.currentSym = s.regs.ended .done ∧
        s.regs.levelsLeft s.params = [s.regs.line]) := by
    rcases (SeqState.not_isIdle_iff _).1 h.busy with hst | hst
    · obtain ⟨⟨hk, hphase, -⟩, -⟩ := (Regs.inv_send hst).1 h.inv.2
      exact .inl (playEdge_send_goesOn h.inv.1 ⟨hst, hphase, hunits, htick⟩ hk h.pending)
    · exact playEdge_gap_goesOn hst hunits htick h.pending
  rcases hgo with ⟨hbusy, hpending, hleft⟩ | ⟨hdone, hleft⟩
  · have hinv := stepKeepsInvariant _ _ h.inv hstep
    refine .inl ⟨⟨hinv, by simpa using hbusy, by simpa using hpending⟩, ?_⟩
    rw [State.levelsLeft, State.levelsLeft, State.nextInputs_params, State.nextInputs_regs]
    exact hleft
  · exact .inr ⟨by rw [State.nextInputs_regs, State.withRegs_regs, hdone], hleft⟩

/-- A transmission goes on through its undisturbed cycles, by induction on them. -/
theorem State.sending.run {s : State} {j m : Nat} (h : s.sending) (hj : j < s.levelsLeft.length)
    (hinputs : s.undisturbedFor (j + m)) :
    ∃ t, steps j s = some t ∧ t.params = s.params ∧ t.sending ∧
      t.levelsLeft = s.levelsLeft.drop j ∧ t.undisturbedFor m := by
  induction j generalizing s with
  | zero => exact ⟨s, rfl, rfl, h, rfl, by rwa [Nat.zero_add] at hinputs⟩
  | succ j ih =>
    rw [Nat.add_right_comm] at hinputs
    obtain ⟨t, hstep, hparams, hmore, ⟨hsending, hleft⟩ | ⟨-, hleft⟩⟩ := h.step hinputs
    · rw [hleft, List.length_cons] at hj
      obtain ⟨u, hsteps, hparams', hsending', hleft', hmore'⟩ := ih hsending (by omega) hmore
      exact ⟨u, steps_succ hstep j ▸ hsteps, hparams'.trans hparams, hsending',
        by rw [hleft', hleft, List.drop_succ_cons], hmore'⟩
    · simp [hleft] at hj

theorem steps_trans {a b : Nat} {s t u : State} (h : steps a s = some t) (h' : steps b t = some u) :
    steps (a + b) s = some u := by
  induction a generalizing s with
  | zero => cases h; rwa [Nat.zero_add]
  | succ a ih =>
    obtain ⟨v, hstep, hrest⟩ := steps_succ_some h
    rw [Nat.add_right_comm, steps_succ hstep]
    exact ih hrest

/-- After the last level the transmission is done (rule R164). -/
theorem State.sending.run_done {s : State} (h : s.sending)
    (hinputs : s.undisturbedFor s.levelsLeft.length) :
    ∃ t r, steps s.levelsLeft.length s = some t ∧ t.regs = Regs.ended r .done := by
  have hpos : 0 < s.levelsLeft.length := (List.getElem?_eq_some_iff.1 h.head).1
  obtain ⟨j, hj⟩ := Nat.exists_eq_add_of_le' hpos
  rw [hj] at hinputs ⊢
  obtain ⟨t, hsteps, -, hsending, hleft, hmore⟩ := h.run (by omega) hinputs
  have hone : t.levelsLeft.length = 1 := by rw [hleft, List.length_drop]; omega
  obtain ⟨u, hstep, -, -, ⟨hsending', hleft'⟩ | ⟨hdone, -⟩⟩ := hsending.step (m := 0) hmore
  · have := (List.getElem?_eq_some_iff.1 hsending'.head).1
    rw [hleft', List.length_cons] at hone
    omega
  · exact ⟨u, t.regs, steps_trans hsteps (steps_succ hstep 0), hdone⟩

/-! From the accepted START. -/

/-- The levels of the transmission that the START at the ports asks for (rule R171). -/
def State.transmission (s : State) : List Bool :=
  (List.replicate s.ports.repeatCount
    (samples s.params (attemptWave s.params (frameOf s.ports.payload)))).flatten

theorem State.transmission_length (s : State) :
    s.transmission.length = s.ports.repeatCount * s.params.attemptCycles := by
  obtain ⟨hframe, -⟩ := frameWaveShape s.params (frameOf s.ports.payload)
  have hunits : waveUnits (attemptWave s.params (frameOf s.ports.payload)) = s.params.attemptUnits := by
    rw [attemptWave, waveUnits_append, hframe]
    rfl
  rw [State.transmission, List.length_flatten, List.map_replicate, List.sum_replicate, samples_length,
    hunits]
  rfl

/-- The edge of an accepted START begins its transmission. -/
theorem State.accepts.sends {s : State} {n : Nat} (h : s.accepts)
    (hhost : ∀ inp ∈ s.host.take n, inp.undisturbed s.params) :
    ∃ t, Machine.step s = .next t ∧ t.params = s.params ∧ t.sending ∧
      t.levelsLeft = s.transmission ∧ t.undisturbedFor n := by
  have hstep := h.step
  obtain ⟨hwf, -, -, -, -, -, -, hfit, hcount⟩ := h
  obtain ⟨n', hn⟩ := Nat.exists_eq_add_of_le' hcount
  have hinputs := State.inputsFor_next (P := Inputs.undisturbed s.params)
    (fun inp => inp.quiet_undisturbed _) hhost (acceptStart s.params s.regs s.ports)
  refine ⟨_, hstep, by simp, ⟨⟨by simpa using hwf, ?_⟩, ?_, ?_⟩, ?_, ?_⟩
  · rw [State.nextInputs_regs, State.nextInputs_params]
    exact acceptStart_inv hwf s.regs (by omega) hfit
  · rw [State.nextInputs_regs, State.withRegs_regs, acceptStart_eq]
    rfl
  · rw [State.nextInputs_regs, State.withRegs_regs, acceptStart_eq]
  · rw [State.levelsLeft, State.nextInputs_regs, State.nextInputs_params, State.withRegs_regs,
      State.withRegs_params, acceptStart, load_first, Regs.levelsLeft_first _ (by rfl) (by decide),
      State.transmission, ← attemptFrom_frameOf hwf, hn, List.replicate_succ, List.flatten_cons]
    simp only [Regs.attemptsLeft, Nat.add_sub_cancel]
    rfl
  · rw [State.undisturbedFor, State.nextInputs_params]
    exact hinputs

/-- Cycle `j` of a transmission whose cycles up to it are undisturbed. -/
theorem State.accepts.run {s : State} {j : Nat} (h : s.accepts) (hj : j < s.transmission.length)
    (hhost : ∀ inp ∈ s.host.take j, inp.undisturbed s.params) :
    ∃ t, steps (j + 1) s = some t ∧ t.params = s.params ∧ t.sending ∧
      s.transmission[j]? = some t.tx := by
  obtain ⟨u, hstep, hparams, hsending, hleft, hinputs⟩ := h.sends hhost
  obtain ⟨t, hsteps, hparams', hsending', hleft', -⟩ :=
    hsending.run (m := 0) (by rwa [hleft]) hinputs
  refine ⟨t, steps_succ hstep j ▸ hsteps, hparams'.trans hparams, hsending', ?_⟩
  have hhead := hsending'.head
  rwa [hleft', hleft, List.getElem?_drop] at hhead

/-- The cycle after an undisturbed transmission. -/
theorem State.accepts.run_done {s : State} (h : s.accepts)
    (hhost : ∀ inp ∈ s.host.take s.transmission.length, inp.undisturbed s.params) :
    ∃ t r, steps (s.transmission.length + 1) s = some t ∧ t.regs = Regs.ended r .done := by
  obtain ⟨u, hstep, -, hsending, hleft, hinputs⟩ := h.sends hhost
  rw [← hleft] at hinputs ⊢
  rw [steps_succ hstep]
  exact hsending.run_done hinputs

/-! Traces of an output. -/

/-- An output in the `k` states after `s`, as `txTrace` and `busyTrace` have it. -/
def traceOf (out : State → Bool) : Nat → State → List Bool
  | 0, _ => []
  | k + 1, s =>
    match step s with
    | .next t => out t :: traceOf out k t
    | .fault _ => []
    | .refused _ => []

theorem txTrace_eq_traceOf (k : Nat) (s : State) : txTrace k s = traceOf State.tx k s := by
  induction k generalizing s with
  | zero => rfl
  | succ k ih => rw [txTrace, traceOf]; cases step s <;> simp [ih]

theorem busyTrace_eq_traceOf (k : Nat) (s : State) : busyTrace k s = traceOf State.busy k s := by
  induction k generalizing s with
  | zero => rfl
  | succ k ih => rw [busyTrace, traceOf]; cases step s <;> simp [ih]

/-- A trace, cycle by cycle. -/
theorem traceOf_eq {out : State → Bool} {w : List Bool} {s : State}
    (h : ∀ j < w.length, ∃ t, steps (j + 1) s = some t ∧ w[j]? = some (out t)) :
    traceOf out w.length s = w := by
  induction w generalizing s with
  | nil => rfl
  | cons b w ih =>
    obtain ⟨t, hsteps, hb⟩ := h 0 (Nat.succ_pos _)
    obtain ⟨u, hstep, hu⟩ := steps_succ_some hsteps
    obtain rfl : u = t := Option.some.inj hu
    obtain rfl : b = out u := Option.some.inj hb
    have hrest := ih (s := u) fun j hj => by
      obtain ⟨v, hv, hout⟩ := h (j + 1) (Nat.succ_lt_succ hj)
      exact ⟨v, steps_succ hstep (j + 1) ▸ hv, by simpa using hout⟩
    simp [traceOf, hstep, hrest]

/-- Settles O44: each cycle shows its level of the transmission, and the cycle after the last is
DONE. -/
theorem transmissionWaveform : Obligations.TransmissionWaveform := by
  intro s h hhost
  rw [← s.transmission_length] at hhost ⊢
  obtain ⟨t, r, hsteps, hregs⟩ := h.run_done hhost
  refine ⟨?_, t, hsteps, by rw [hregs]; rfl, by rw [hregs]; rfl, by rw [State.tx_eq, hregs]; rfl⟩
  rw [txTrace_eq_traceOf]
  exact traceOf_eq fun j hj => by
    obtain ⟨t, hsteps, -, -, htx⟩ := h.run hj fun inp hinp =>
      hhost inp (List.take_subset_take_left _ hj.le hinp)
    exact ⟨t, hsteps, htx⟩

/-- Settles O45: each cycle of the transmission is busy, and the one after the last is not. -/
theorem busyWindow : Obligations.BusyWindow := by
  intro s h hhost
  rw [← s.transmission_length] at hhost ⊢
  obtain ⟨t, r, hsteps, hregs⟩ := h.run_done hhost
  refine ⟨?_, t, hsteps, by rw [State.statusOut, hregs]; rfl⟩
  have hlength : (List.replicate s.transmission.length true ++ [false]).length =
      s.transmission.length + 1 := by simp
  rw [busyTrace_eq_traceOf, ← hlength]
  refine traceOf_eq fun j hj => ?_
  rw [hlength] at hj
  rcases Nat.lt_succ_iff_lt_or_eq.1 hj with hlt | rfl
  · obtain ⟨u, hsteps', -, hsending, -⟩ := h.run hlt fun inp hinp =>
      hhost inp (List.take_subset_take_left _ hlt.le hinp)
    exact ⟨u, hsteps', by simp [List.getElem?_append, hlt, hsending.busy]⟩
  · exact ⟨t, hsteps, by simp [hregs, SeqState.isIdle]⟩

/-! An immediate ABORT, and the rest after it (rule R174). -/

/-- The inputs of step after step are the host's records, as far as its list goes. -/
theorem steps_inputs {n : Nat} {s t : State} (h : steps n s = some t) (hn : n ≤ s.host.length) :
    t.ports :: t.host = (s.ports :: s.host).drop n := by
  induction n generalizing s with
  | zero => cases h; rfl
  | succ n ih =>
    obtain ⟨u, hstep, hrest⟩ := steps_succ_some h
    have hhost : s.host ≠ [] := List.ne_nil_of_length_pos (by omega)
    have hnext : u.ports :: u.host = s.host := by
      obtain ⟨-, ⟨-, -, rfl⟩ | ⟨-, -, rfl⟩⟩ := step_next s u hstep
      · rw [State.nextInputs_inputs, if_neg hhost]
      · rw [State.nextInputs_inputs, State.withRegs_host, if_neg hhost]
    have hlength : u.host.length + 1 = s.host.length := congrArg List.length hnext
    rw [ih hrest (by omega), hnext, List.drop_succ_cons]

/-- An edge with no START, which leaves IDLE at rest. -/
abbrev Inputs.restful (inp : Inputs) : Prop := inp.clk = true ∧ inp.start = false

/-- With no START the line stays low in IDLE, by induction on the edges. -/
theorem steps_at_rest {n : Nat} {s : State} (hwf : s.params.wf = true)
    (hidle : s.regs.st.isIdle = true) (hline : s.regs.line = false)
    (hinputs : s.inputsFor Inputs.restful n) :
    ∃ t, steps n s = some t ∧ t.regs.line = false := by
  induction n generalizing s with
  | zero => exact ⟨s, rfl, hline⟩
  | succ n ih =>
    obtain ⟨⟨hclk, hstart⟩, hlater⟩ := (s.inputsFor_succ _ _).1 hinputs
    have hrest : (edgeRegs s.params s.regs s.ports).st.isIdle = true ∧
        (edgeRegs s.params s.regs s.ports).line = false := by
      rcases edgeRegs_cases s.params s.regs s.ports with ⟨-, e⟩ | ⟨-, -, -, e⟩ | ⟨-, -, -, hs, -⟩ |
        ⟨-, -, -, hs, -⟩ | ⟨-, hbusy, -⟩ | ⟨-, hbusy, -⟩
      · rw [e]; exact ⟨rfl, rfl⟩
      · rw [e]; exact ⟨hidle, hline⟩
      · simp [hstart] at hs
      · simp [hstart] at hs
      · simp [hidle] at hbusy
      · simp [hidle] at hbusy
    have hstep := step_edge s hwf hclk fun _ _ hs => by simp [hstart] at hs
    rw [steps_succ hstep]
    exact ih (by simpa using hwf) (by simpa using hrest.1) (by simpa using hrest.2)
      (State.inputsFor_next (fun _ => ⟨rfl, rfl⟩) hlater _)

/-- The edge of an immediate ABORT is GO_IDLE (rule R156). -/
theorem step_abortImmediate {s : State} (hwf : s.params.wf = true)
    (hmode : s.params.abortAtBoundary = false) (hbusy : s.regs.st.isIdle = false)
    (hclk : s.ports.clk = true) (hrst : s.ports.rst = false) (habort : s.ports.abort = true) :
    step s = .next (s.withRegs (s.regs.ended .aborted)).nextInputs := by
  have hedge : edgeRegs s.params s.regs s.ports = s.regs.ended .aborted := by
    simp [edgeRegs, hrst, habort, abortEdge_immediate hbusy hmode]
  rw [step_edge s hwf hclk fun _ hno => by simp [habort] at hno, hedge]

/-- A transmission cut in its cycle `n`, the first being cycle 0: it is over in the next cycle, and
the line stays low in the `j` cycles after that. -/
theorem State.accepts.run_aborted {s : State} {n j : Nat} {inp : Inputs} (h : s.accepts)
    (hmode : s.params.abortAtBoundary = false) (hn : n < s.transmission.length)
    (hearly : ∀ early ∈ s.host.take n, early.undisturbed s.params) (hinp : s.host[n]? = some inp)
    (hclk : inp.clk = true) (hrst : inp.rst = false) (habort : inp.abort = true)
    (hlate : ∀ late ∈ (s.host.drop (n + 1)).take j, late.restful) :
    ∃ u r, steps (n + 2) s = some u ∧ u.regs = Regs.ended r .aborted ∧
      ∃ v, steps (n + 2 + j) s = some v ∧ v.tx = false := by
  obtain ⟨t, hsteps, hparams, hsending, -⟩ := h.run hn hearly
  obtain ⟨hlt, hget⟩ := List.getElem?_eq_some_iff.1 hinp
  have hinputs := steps_inputs hsteps hlt
  rw [List.drop_succ_cons, List.drop_eq_getElem_cons hlt, hget, List.cons.injEq] at hinputs
  obtain ⟨hports, hhost⟩ := hinputs
  have hstep := step_abortImmediate hsending.inv.1 (by rwa [hparams]) hsending.busy (by rwa [hports])
    (by rwa [hports]) (by rwa [hports])
  have hcut := steps_trans hsteps (steps_succ hstep 0)
  obtain ⟨v, hrest, hline⟩ := steps_at_rest (n := j)
    (s := (t.withRegs (t.regs.ended .aborted)).nextInputs) (by simpa using hsending.inv.1)
    (by simp [SeqState.isIdle]) (by simp)
    (State.inputsFor_next (fun _ => ⟨rfl, rfl⟩) (by rwa [hhost]) _)
  exact ⟨_, t.regs, hcut, by simp, v, steps_trans hcut hrest, hline⟩

/-- Settles O46: the cycles up to the ABORT show the transmission, those after it a line at rest. -/
theorem abortedWaveform : Obligations.AbortedWaveform := by
  intro s m j inp h hmode hm hle hearly hinp hclk hrst habort hlate
  rw [← s.transmission_length] at hle
  obtain ⟨n, rfl⟩ := Nat.exists_eq_add_of_le' hm
  rw [Nat.add_sub_cancel] at hearly hinp
  have hcut := fun i => h.run_aborted (j := i) hmode hle hearly hinp hclk hrst habort
  obtain ⟨u, r, hsteps, hregs, -⟩ := hcut j hlate
  refine ⟨?_, u, hsteps, by rw [State.busy_eq, hregs]; rfl, by rw [hregs]; rfl⟩
  change txTrace (n + 1 + 1 + j) s = s.transmission.take (n + 1) ++ List.replicate (j + 1) false
  have hlength : (s.transmission.take (n + 1) ++ List.replicate (j + 1) false).length =
      n + 1 + 1 + j := by
    simp only [List.length_append, List.length_take, List.length_replicate]; omega
  rw [txTrace_eq_traceOf, ← hlength]
  refine traceOf_eq fun i hi => ?_
  rw [hlength] at hi
  have htake : (s.transmission.take (n + 1)).length = n + 1 := by rw [List.length_take]; omega
  by_cases hbefore : i < n + 1
  · obtain ⟨t, hsteps', -, -, htx⟩ := h.run (j := i) (by omega) fun early hmem =>
      hearly early (List.take_subset_take_left _ (by omega) hmem)
    exact ⟨t, hsteps',
      by rwa [List.getElem?_append_left (by omega), List.getElem?_take_of_lt hbefore]⟩
  · obtain ⟨i, rfl⟩ := Nat.exists_eq_add_of_le (Nat.le_of_not_lt hbefore)
    obtain ⟨-, -, -, -, v, hsteps', htx⟩ := hcut i fun late hmem =>
      hlate late (List.take_subset_take_left _ (by omega) hmem)
    refine ⟨v, ?_, ?_⟩
    · rwa [show n + 1 + i + 1 = n + 2 + i by omega]
    · rw [List.getElem?_append_right (by omega), List.getElem?_replicate_of_lt (by omega), htx]

end Sys2Proof.Machine

/-! ### Exceptions: ABORT at the completing edge (spec/60_exceptions.md) -/

namespace Sys2Proof.Machine

/-- In a gap the two abort modes agree: a boundary ABORT of a gap ends it at once too, before
TIMER_STEP is asked whether the gap is over (rules R156 and R157). -/
theorem abortEdge_gap {p : Params} {r : Regs} (hst : r.st = .gap) :
    abortEdge p r = r.ended .aborted := by
  have hbusy : r.st.isIdle = false := by rw [hst]; rfl
  cases hmode : p.abortAtBoundary with
  | false => exact abortEdge_immediate hbusy hmode
  | true => rw [abortEdge_boundary hbusy hmode, advance_gap_abort _ _ _ hmode hst]

/-- An edge with ABORT and no RESET takes no operands, so it goes on whatever the operand ports hold. -/
theorem step_abort {s : State} (hwf : s.params.wf = true) (hclk : s.ports.clk = true)
    (hrst : s.ports.rst = false) (habort : s.ports.abort = true) :
    step s = .next (s.withRegs (abortEdge s.params s.regs)).nextInputs := by
  have hedge : edgeRegs s.params s.regs s.ports = abortEdge s.params s.regs := by
    simp [edgeRegs, hrst, habort]
  rw [step_edge s hwf hclk fun _ hno => by simp [habort] at hno, hedge]

/-- Settles O53: an ABORT cuts every cycle of a gap, so also the last one of the last gap. -/
theorem abortBeatsCompletion : Obligations.AbortBeatsCompletion := by
  intro s hwf hclk hrst habort hst _ _
  exact ⟨_, step_abort hwf hclk hrst habort, by
    rw [State.nextInputs_regs, State.withRegs_regs, abortEdge_gap hst]⟩

end Sys2Proof.Machine

/-! ### Reset and hazards: RESET at and between edges, RESET held, and the symbol start times
(spec/70_reset_and_hazards.md) -/

namespace Sys2Proof.Machine

/-! RESET (rules R220 and R222). -/

/-- An edge with RESET takes no operands, so it goes on whatever the other inputs are. -/
theorem step_reset {s : State} (hwf : s.params.wf = true) (hclk : s.ports.clk = true)
    (hrst : s.ports.rst = true) : step s = .next (s.withRegs Regs.reset).nextInputs := by
  have hedge : edgeRegs s.params s.regs s.ports = Regs.reset := if_pos hrst
  rw [step_edge s hwf hclk fun hno => by simp [hrst] at hno, hedge]

/-- Settles O39: an edge with RESET writes the reset state, and a moment with no edge is ENCODE's
alone. -/
theorem synchronousReset : Obligations.SynchronousReset := by
  intro s hwf
  constructor
  · intro hclk hrst
    exact ⟨_, step_reset hwf hclk hrst, by simp⟩
  · intro hclk _ hok
    exact ⟨_, step_noEdge s hwf hclk hok, s.nextInputs_regs⟩

/-- RESET at this edge and at the host's next `n`: the reset state follows, by induction on the
edges. -/
theorem steps_resetHeld {n : Nat} {s : State} (hwf : s.params.wf = true) (hn : n ≤ s.host.length)
    (hclk : s.ports.clk = true) (hrst : s.ports.rst = true)
    (hheld : ∀ inp ∈ s.host.take n, inp.clk = true ∧ inp.rst = true) :
    ∃ t, steps (n + 1) s = some t ∧ t.params = s.params ∧ t.regs = Regs.reset := by
  have hstep := step_reset hwf hclk hrst
  rw [steps_succ hstep]
  induction n generalizing s with
  | zero => exact ⟨_, rfl, by simp, by simp⟩
  | succ n ih =>
    obtain ⟨inp, rest, hhost⟩ := List.exists_cons_of_length_pos (Nat.zero_lt_of_lt hn)
    obtain ⟨hports, hrest⟩ := (s.withRegs Regs.reset).nextInputs_cons inp rest hhost
    rw [hhost, List.take_succ_cons, List.forall_mem_cons] at hheld
    obtain ⟨⟨hclk', hrst'⟩, hlater⟩ := hheld
    generalize ht : (s.withRegs Regs.reset).nextInputs = t at hports hrest
    have hparams : t.params = s.params := by rw [← ht]; simp
    have hwf' : t.params.wf = true := by rwa [hparams]
    have hstep' := step_reset hwf' (by rwa [hports]) (by rwa [hports])
    obtain ⟨u, hsteps, hparams', hregs⟩ := ih hwf' (by rw [hhost] at hn; simpa [hrest] using hn)
      (by rwa [hports]) (by rwa [hports]) (by rwa [hrest]) hstep'
    exact ⟨u, steps_succ hstep' n ▸ hsteps, hparams'.trans hparams, hregs⟩

/-- Settles O40: after the RESET edges the ports show the host's record `n`, whose edge is STEP and, if
it is an accepted START, `acceptStart`. -/
theorem resetHeld : Obligations.ResetHeld := by
  intro n s hwf hn hclk hrst hheld
  obtain ⟨t, hsteps, hparams, hregs⟩ := steps_resetHeld hwf hn hclk hrst hheld
  refine ⟨t, hsteps, hregs, fun inp hinp hclk' hrst' hfit => ?_⟩
  obtain ⟨hlt, hget⟩ := List.getElem?_eq_some_iff.1 hinp
  have hinputs := steps_inputs hsteps hlt
  rw [List.drop_succ_cons, List.drop_eq_getElem_cons hlt, hget] at hinputs
  obtain ⟨rfl, -⟩ := List.cons.inj hinputs
  rw [← hparams] at hwf hfit ⊢
  have hstep := stepImplementsR151 t hwf hclk' hfit
  refine ⟨_, hstep, by simp [hregs], fun habort hstart hcount => ?_⟩
  have hacc := State.accepts_of_start hwf hclk' (by rw [hregs]; rfl) hrst' habort hstart hcount
    (hfit hstart)
  rw [Host.Outcome.next.inj (hstep.symm.trans hacc.step)]
  simp [acceptStart_eq, SeqState.isIdle]

/-! Undisturbed runs from registers to registers, counted in cycles. -/

/-- With parameters `p` the registers `r` become `r'` in `n` undisturbed cycles, whatever the host
drives in them; if `m` more such cycles were promised, they are still to come. -/
def Reaches (p : Params) (r : Regs) (n : Nat) (r' : Regs) : Prop :=
  ∀ (s : State) (m : Nat), s.params = p → s.regs = r → s.undisturbedFor (n + m) →
    ∃ t, steps n s = some t ∧ t.params = p ∧ t.regs = r' ∧ t.undisturbedFor m

theorem Reaches.refl (p : Params) (r : Regs) : Reaches p r 0 r := fun s m hparams hregs hmore =>
  ⟨s, rfl, hparams, hregs, by rwa [Nat.zero_add] at hmore⟩

theorem Reaches.trans {p : Params} {r r' r'' : Regs} {n n' : Nat} (h : Reaches p r n r')
    (h' : Reaches p r' n' r'') : Reaches p r (n + n') r'' := by
  intro s m hparams hregs hmore
  rw [Nat.add_assoc] at hmore
  obtain ⟨t, hsteps, hparams', hregs', hmore'⟩ := h s _ hparams hregs hmore
  obtain ⟨u, hsteps', hu⟩ := h' t m hparams' hregs' hmore'
  exact ⟨u, steps_trans hsteps hsteps', hu⟩

/-- A run that plays a known number of levels. -/
theorem State.playsTo.steps {s : State} {w : List Bool} {r : Regs} {m : Nat} (h : s.playsTo w r m) :
    ∃ t, steps w.length s = some t ∧ t.params = s.params ∧ t.regs = r ∧ t.undisturbedFor m := by
  obtain ⟨t, hplays, ht⟩ := h
  exact ⟨t, hplays.steps, ht⟩

/-- A symbol takes the time of its recipe, and then the next symbol or the gap begins (rule R130). -/
theorem Reaches.symbol {p : Params} (hwf : p.wf = true) {r : Regs} (h : r.startsPhase p)
    (hphase : r.phase = 0#2) :
    Reaches p r (symbolUnits p r.currentSym * p.unitCycles)
      (if r.symIdx < 33#6 then r.atPhase (r.symIdx + 1#6) 0#2 true 1 else r.atGap p.gapUnits) := by
  rintro s m rfl rfl hmore
  have hwave : waveFrom s.params s.regs.currentSym s.regs.phase.toNat =
      symbolWave s.params s.regs.currentSym := by rw [hphase]; rfl
  have hrun := State.playsTo_symbolEnd (m := m) hwf h (by rwa [hwave, waveUnits_symbolWave])
  rw [hwave] at hrun
  have hreach := hrun.steps
  rwa [samples_length, waveUnits_symbolWave] at hreach

/-- A gap with an attempt still to start takes `GAP_UNITS`, and then that attempt's `B` begins
(rule R162). -/
theorem Reaches.gap {p : Params} (hwf : p.wf = true) {r : Regs} (hpending : r.abortPending = false)
    (hrep : 0 < r.repLeft) :
    Reaches p (r.atGap p.gapUnits) (p.gapUnits * p.unitCycles)
      ({ r with repLeft := r.repLeft - 1, st := .send }.atPhase 0#6 0#2 true 1) := by
  rintro s m rfl hregs hmore
  obtain ⟨hunit, -, -, hgap, -⟩ := s.params.wf_iff.1 hwf
  obtain ⟨j, hj⟩ := Nat.exists_eq_add_of_le' (Nat.mul_pos hgap hunit)
  have hcut : s.regs.gapUncut s.params := by simp [Regs.gapUncut, hregs, hpending]
  have hunits : s.regs.unitsLeft * s.params.unitCycles = j + 1 := by rw [hregs]; exact hj
  have hend := (Regs.phaseEnds_held hunit (r := s.regs) (by omega)).2 hunits.symm
  have hedge : playEdge s.params (s.regs.held s.params j) s.regs.currentSym =
      { r with repLeft := r.repLeft - 1, st := .send }.atPhase 0#6 0#2 true 1 := by
    rw [hregs] at hcut hend ⊢
    rw [playEdge_gapEnd (r := (r.atGap s.params.gapUnits).held s.params j) _ rfl hcut hend,
      gapPhaseEnd_again _ _ (by exact hrep)]
    rfl
  have hrun := State.playsTo_phase hwf (by rw [hregs]; rfl) hcut (by rw [hregs]; rfl) hunits.symm
    (hj ▸ hmore)
  rw [hedge] at hrun
  have hreach := hrun.steps
  rwa [List.length_replicate, ← hj] at hreach

/-! Symbol start times (rule R234). -/

/-- `start_k`, the units of an attempt before its symbol `k`. -/
def symbolStartUnits (p : Params) (k : Nat) : Nat :=
  if k = 0 then 0 else (1 + p.startLowUnits) + (k - 1) * (3 + p.longUnits)

/-- The registers in the first cycle of symbol `k` of a transmission of `f`, with `more` attempts
still to start after the current one. -/
def symbolStart (f : Frame) (more k : Nat) : Regs where
  st := .send
  frame := f
  repLeft := more
  tick := 0
  unitsLeft := 1
  line := true
  status := .none
  symIdx := BitVec.ofNat 6 k
  phase := 0#2
  abortPending := false

theorem acceptStart_eq_symbolStart (p : Params) (r : Regs) (inp : Inputs) :
    acceptStart p r inp = symbolStart (frameOf inp.payload) (inp.repeatCount - 1) 0 :=
  acceptStart_eq p r inp

theorem symbolStart_symIdx_lt (f : Frame) (more : Nat) {k : Nat} (hk : k ≤ 33) :
    (symbolStart f more k).symIdx < 33#6 ↔ k < 33 := by
  rw [symbolStart, BitVec.lt_def, BitVec.toNat_ofNat, Nat.mod_eq_of_lt (by omega)]
  rfl

theorem symbolStart_last (P : Payload) (more : Nat) :
    (symbolStart (frameOf P) more 33).currentSym = .E :=
  Regs.currentSym_last rfl (frameOf_markers P)

theorem symbolStart_startsPhase (p : Params) (P : Payload) (more : Nat) {k : Nat} (hk : k ≤ 33) :
    (symbolStart (frameOf P) more k).startsPhase p where
  st := rfl
  pending := rfl
  last hlast := by
    obtain rfl : k = 33 := by
      have := mt (symbolStart_symIdx_lt _ more hk).2 hlast
      omega
    exact symbolStart_last P more
  phase := by cases (symbolStart (frameOf P) more k).currentSym <;> simp [symbolStart, nph, recipe]
  timed := by simp [symbolStart]
  line := by simp [symbolStart]
  units := by simp [symbolStart]
  tick := rfl

theorem symbolUnits_B (p : Params) : symbolUnits p .B = 1 + p.startLowUnits := rfl

theorem symbolUnits_E (p : Params) : symbolUnits p .E = 1 := rfl

/-- Both data symbols take `DATA_UNITS` (rule R8). -/
theorem symbolUnits_dataSym (p : Params) (b : Bool) :
    symbolUnits p (dataSym b) = 3 + p.longUnits := by
  cases b <;> simp [symbolUnits, recipe, dataSym] <;> omega

/-- `start_k` counts the units of the symbols before `k`: those of `B`, and of `k - 1` data bits. -/
theorem symbolStartUnits_succ (p : Params) (P : Payload) (more : Nat) {k : Nat} (hk : k < 33) :
    symbolStartUnits p (k + 1) =
      symbolStartUnits p k + symbolUnits p (symbolStart (frameOf P) more k).currentSym := by
  have hmod : k % 64 = k := Nat.mod_eq_of_lt (by omega)
  have hsym : (symbolStart (frameOf P) more k).currentSym =
      (frameSymbols P)[k]'(by rw [frameSymbols_length]; omega) := by
    have hle : BitVec.ofNat 6 k ≤ 33#6 :=
      BitVec.le_of_lt ((symbolStart_symIdx_lt (frameOf P) more hk.le).2 hk)
    exact (symAt_frameOf P (BitVec.ofNat 6 k) hle).trans (by simp [hmod])
  rw [hsym]
  cases k with
  | zero => simp [symbolStartUnits, frameSymbols, symbolUnits_B]
  | succ j =>
    rw [frameSymbols_data P (j + 1) (by omega) (by omega), symbolUnits_dataSym]
    simp [symbolStartUnits, Nat.succ_mul, Nat.add_assoc]

/-- The symbols and the gap of an attempt take `ATTEMPT_UNITS` (rule R8). -/
theorem attemptUnits_eq (p : Params) : p.attemptUnits = symbolStartUnits p 33 + 1 + p.gapUnits := by
  rw [symbolStartUnits, if_neg (by decide), Params.attemptUnits, Params.frameUnits, Params.dataUnits]
  omega

/-- From an attempt's first cycle to the first of its symbol `k`, by induction on the symbols. -/
theorem Reaches.toSymbol {p : Params} (hwf : p.wf = true) (P : Payload) (more : Nat) {k : Nat}
    (hk : k ≤ 33) :
    Reaches p (symbolStart (frameOf P) more 0) (symbolStartUnits p k * p.unitCycles)
      (symbolStart (frameOf P) more k) := by
  induction k with
  | zero => simpa [symbolStartUnits] using Reaches.refl p _
  | succ k ih =>
    have hnext := Reaches.symbol hwf (symbolStart_startsPhase p P more (k := k) (by omega)) rfl
    have hsucc : (symbolStart (frameOf P) more k).symIdx + 1#6 = BitVec.ofNat 6 (k + 1) :=
      (BitVec.ofNat_add k 1).symm
    rw [if_pos ((symbolStart_symIdx_lt _ more (by omega)).2 hk), hsucc] at hnext
    rw [symbolStartUnits_succ p P more hk, Nat.add_mul]
    exact (ih (by omega)).trans hnext

/-- From an attempt's first cycle to the next attempt's: the symbols up to `E`, `E`, and the gap. -/
theorem Reaches.attempt {p : Params} (hwf : p.wf = true) (P : Payload) (more : Nat) :
    Reaches p (symbolStart (frameOf P) (more + 1) 0) p.attemptCycles
      (symbolStart (frameOf P) more 0) := by
  have hlast := Reaches.symbol hwf (symbolStart_startsPhase p P (more + 1) le_rfl) rfl
  rw [symbolStart_last, symbolUnits_E,
    if_neg (by rw [symbolStart_symIdx_lt _ _ le_rfl]; omega)] at hlast
  have hgap := Reaches.gap hwf (r := symbolStart (frameOf P) (more + 1) 33) rfl
    (Nat.succ_pos more)
  rw [Params.attemptCycles, attemptUnits_eq, Nat.add_mul, Nat.add_mul]
  exact ((Reaches.toSymbol hwf P (more + 1) le_rfl).trans hlast).trans hgap

/-- From the first attempt's first cycle to that of attempt `m`, by induction on the attempts. -/
theorem Reaches.attempts {p : Params} (hwf : p.wf = true) (P : Payload) (more m : Nat) :
    Reaches p (symbolStart (frameOf P) (more + m) 0) (m * p.attemptCycles)
      (symbolStart (frameOf P) more 0) := by
  induction m with
  | zero => simpa using Reaches.refl p _
  | succ m ih =>
    rw [Nat.succ_mul, Nat.add_comm (m * _)]
    exact (Reaches.attempt hwf P (more + m)).trans ih

/-- Every symbol of an attempt begins within the attempt. -/
theorem symbolStartUnits_le (p : Params) {k : Nat} (hk : k ≤ 33) :
    symbolStartUnits p k ≤ p.attemptUnits := by
  have hdata : (k - 1) * (3 + p.longUnits) ≤ 32 * (3 + p.longUnits) :=
    Nat.mul_le_mul_right _ (by omega)
  simp only [symbolStartUnits, Params.attemptUnits, Params.frameUnits, Params.dataUnits]
  split <;> omega

/-- The cycle of rule R234 for symbol `k` of attempt `m`, counted from the first of the transmission,
is within the transmission. -/
theorem symbolStartCycle_le (p : Params) {m k count : Nat} (hm : m < count) (hk : k ≤ 33) :
    m * p.attemptCycles + symbolStartUnits p k * p.unitCycles ≤ count * p.attemptCycles :=
  calc m * p.attemptCycles + symbolStartUnits p k * p.unitCycles
      ≤ m * p.attemptCycles + p.attemptCycles :=
        Nat.add_le_add_left (Nat.mul_le_mul_right _ (symbolStartUnits_le p hk)) _
    _ = (m + 1) * p.attemptCycles := (Nat.succ_mul m _).symm
    _ ≤ count * p.attemptCycles := Nat.mul_le_mul_right _ hm

/-- The state in the first cycle of symbol `k` of attempt `m`, after an accepted START. -/
theorem State.accepts.run_toSymbol {s : State} {m k : Nat} (h : s.accepts)
    (hm : m < s.ports.repeatCount) (hk : k ≤ 33)
    (hhost : ∀ inp ∈ s.host.take (s.ports.repeatCount * s.params.attemptCycles),
      inp.undisturbed s.params) :
    ∃ t, steps (m * s.params.attemptCycles + symbolStartUnits s.params k * s.params.unitCycles + 1) s
        = some t ∧
      t.regs = symbolStart (frameOf s.ports.payload) (s.ports.repeatCount - 1 - m) k := by
  obtain ⟨u, hstep, hparams, -, -, hinputs⟩ := h.sends
    (n := m * s.params.attemptCycles + symbolStartUnits s.params k * s.params.unitCycles)
    fun inp hinp => hhost inp (List.take_subset_take_left _ (symbolStartCycle_le _ hm hk) hinp)
  have hregs : u.regs = symbolStart (frameOf s.ports.payload)
      (s.ports.repeatCount - 1 - m + m) 0 := by
    rw [Nat.sub_add_cancel (by omega), ← acceptStart_eq_symbolStart s.params s.regs]
    cases Host.Outcome.next.inj (hstep.symm.trans h.step)
    simp
  obtain ⟨hwf, -⟩ := h
  obtain ⟨t, hsteps, -, hregs', -⟩ := (Reaches.attempts hwf s.ports.payload _ m).trans
    (Reaches.toSymbol hwf _ _ hk) u 0 hparams hregs hinputs
  exact ⟨t, steps_succ hstep _ ▸ hsteps, hregs'⟩

/-- Settles O47: the state at that cycle has the registers of `symbolStart`. -/
theorem symbolStartTimes : Obligations.SymbolStartTimes := by
  intro s m k h hm hk hhost
  obtain ⟨t, hsteps, hregs⟩ := h.run_toSymbol hm hk hhost
  have hcycle : 1 + m * s.params.attemptUnits * s.params.unitCycles +
      symbolStartUnits s.params k * s.params.unitCycles =
      m * s.params.attemptCycles + symbolStartUnits s.params k * s.params.unitCycles + 1 := by
    rw [Nat.mul_assoc, Nat.add_assoc, Nat.add_comm]
    rfl
  have hidx : k % 64 = k := Nat.mod_eq_of_lt (by omega)
  refine ⟨t, hcycle ▸ hsteps, ?_⟩
  rw [State.tx_eq, hregs]
  exact ⟨rfl, hidx, rfl, rfl, rfl, rfl⟩

end Sys2Proof.Machine

/-! ### Host inputs: what the ports hold after a step (log 3; spec/30_encoding.md rule R84) -/

namespace Sys2Proof.Machine

/-- Every step that goes on writes registers only, and then takes the host's next inputs. -/
theorem step_next_nextInputs {s t : State} (h : step s = .next t) :
    ∃ r, t = (s.withRegs r).nextInputs := by
  obtain ⟨-, ⟨-, -, ht⟩ | ⟨-, -, ht⟩⟩ := step_next s t h
  · exact ⟨s.regs, ht⟩
  · exact ⟨edgeRegs s.params s.regs s.ports, ht⟩

/-- Settles O55: the registers a step writes leave the ports and the host's list to `nextInputs`. -/
theorem hostInputsFollow : Obligations.HostInputsFollow := by
  intro s t hstep
  obtain ⟨r, rfl⟩ := step_next_nextInputs hstep
  refine ⟨fun hnil => ?_, fun inp rest hcons => (s.withRegs r).nextInputs_cons inp rest hcons⟩
  rw [(s.withRegs r).nextInputs_nil hnil]
  exact ⟨hnil, rfl⟩

end Sys2Proof.Machine
